-- ==== Sys2Proof/Word.lean ====
section
/-! DEFINITION. The word and the byte of the RC5 core (00_scope.md R10). Every arithmetic operation on
them stands in `Sys2Proof/Machine/Arith.lean`. -/

namespace Sys2Proof

/-- A word: an unsigned 32-bit integer, bit 31 the most significant (R10). -/
abbrev Word := BitVec 32

/-- A byte: an unsigned 8-bit integer, bit 7 the most significant (R10). -/
abbrev Byte := BitVec 8

end Sys2Proof
end

