-- ==== Sys2Proof/Config.lean ====
section
/-! DEFINITION. The parameters that the spec leaves to the implementation and the platform and that the
model takes as arguments: `R_MAX` and `B_MAX` (00_scope.md R8, 92_eei_decisions.md D7) and `BASE`
(20_memory.md R46, D20). `State` carries one value of `Params` that no step changes, so a statement about
every state is a statement about every value of the parameters (log entry 1). -/

namespace Sys2Proof

/-- The parameters of one core. Sizes are naturals of unbounded width (R10). -/
structure Params where
  /-- `R_MAX`, the largest round count the table storage holds (R8). -/
  rMax : Nat
  /-- `B_MAX`, the largest key length in bytes the key buffer holds (R8). -/
  bMax : Nat
  /-- `BASE`, the bus address of offset `0x000` of the register interface (R46). -/
  base : Nat
  deriving DecidableEq, Repr

/-- `T_MAX = 2 * (R_MAX + 1)`, the number of words of table storage (R8). -/
def Params.tMax (p : Params) : Nat := 2 * (p.rMax + 1)

/-- `C_MAX = ceil(B_MAX / 4)`, the number of words of the key buffer (R8). -/
def Params.cMax (p : Params) : Nat := (p.bMax + 3) / 4

/-- The default capacities of R8. The value 0 of `BASE` is a DESIGN CHOICE (log entry 2): the spec gives
`BASE` no default, and no rule depends on it (D20). -/
def Params.default : Params where
  rMax := 255
  bMax := 255
  base := 0

end Sys2Proof
end

