-- ==== Sys2Proof/Machine/Bus.lean ====
section
/-! DEFINITION. What the host does to the core: the names of the registers of the interface
(20_memory.md R37), the host's lines `RD` and `WR` (30_encoding.md R60), the bus accesses that carry them
(R40, R41) and the reset event (70_reset_and_hazards.md R136). -/

namespace Sys2Proof

/-- The registers of the interface by name (R37). `keyw m` is `KEYW[m]`. -/
inductive Reg where
  | cmd
  | status
  | rounds
  | keylen
  | blka
  | blkb
  | keyw (m : Nat)
  deriving DecidableEq, Repr

/-- One line of a host program (R60): `RD reg`, or `WR reg, value`. The line `CMD <name>` is
`WR CMD, <its command word>`. -/
inductive HostLine where
  | rd (reg : Reg)
  | wr (reg : Reg) (value : Word)
  deriving DecidableEq, Repr

/-- The two directions of an access. -/
inductive AccessKind where
  | read
  | write
  deriving DecidableEq, Repr

/-- The access widths that the interface does not accept (R41). -/
inductive OtherWidth where
  | bits8
  | bits16
  | bits64
  deriving DecidableEq, Repr

/-- One access as it arrives on the platform's bus. Addresses are naturals, because the spec gives the
bus no width. -/
inductive BusAccess where
  /-- A 32-bit read at a bus address. -/
  | rd32 (addr : Nat)
  /-- A 32-bit write of `value` at a bus address. -/
  | wr32 (addr : Nat) (value : Word)
  /-- An access of another width. The data of such a write is left out: the interface accepts no such
  access, whatever its data (R41). -/
  | otherWidth (kind : AccessKind) (width : OtherWidth) (addr : Nat)
  deriving DecidableEq, Repr

/-- One event from outside the core, in arrival order (R48): an access, or a reset (R136). -/
inductive HostEvent where
  | access (a : BusAccess)
  | reset
  deriving DecidableEq, Repr

/-- Why an access is not one the interface accepts (R41, R42, R99). -/
inductive AccessError where
  /-- The access is not 32 bits wide (R41). -/
  | otherWidth
  /-- The bus address lies below `BASE`, so that it is no offset of this core's window (R37, R46). -/
  | belowBase
  /-- The offset is not a multiple of 4 (R41). -/
  | misaligned
  /-- The offset is one that R37 marks reserved (R42); the offsets of `KEYW[m]` with `m >= C_MAX` are
  among these (R99). -/
  | reservedOffset
  deriving DecidableEq, Repr

end Sys2Proof
end

