-- ==== Sys2Proof/Syntax.lean ====
section
/-! DEFINITION. The commands of the core, one constructor per row of spec/opcode_table.json
(30_encoding.md R54). The host's own steps `RD` and `WR` are not commands of the core
(43_host_access.md); they stand in `Sys2Proof/Machine/Bus.lean`. -/

namespace Sys2Proof

/-- The three commands. No command carries an operand: a command word names no register and holds no
immediate (R57). -/
inductive Instr where
  /-- `SETUP`, command word `0x00000001`: construct a context (40_key_schedule.md R64). -/
  | setup
  /-- `ENC`, command word `0x00000002`: encrypt the block in place (41_encrypt.md R78). -/
  | enc
  /-- `DEC`, command word `0x00000003`: decrypt the block in place (42_decrypt.md R86). -/
  | dec
  deriving DecidableEq, Repr

end Sys2Proof
end

