-- ==== Sys2Proof/WellFormed.lean ====
section
/-! DEFINITION. Which parameters, commands and host lines are well formed. -/

namespace Sys2Proof

/-- The constraints on the parameters: `1 <= R_MAX <= 2^32 - 1`, `1 <= B_MAX <= 2^32 - 1` (R8), and `BASE`
a multiple of 4 (R46). -/
def Params.wf (p : Params) : Bool :=
  decide (1 ≤ p.rMax) && decide (p.rMax ≤ 2 ^ 32 - 1) &&
  decide (1 ≤ p.bMax) && decide (p.bMax ≤ 2 ^ 32 - 1) &&
  decide (p.base % 4 = 0)

/-- Every command is well formed: a command has no operand field that could be out of range (R57). -/
def Instr.wf (i : Instr) : Bool :=
  match i with
  | .setup => true
  | .enc => true
  | .dec => true

/-- A register name is well formed when the core has the register: `KEYW[m]` exists for
`0 <= m < C_MAX` (R37). -/
def Reg.wf (p : Params) (r : Reg) : Bool :=
  match r with
  | .cmd => true
  | .status => true
  | .rounds => true
  | .keylen => true
  | .blka => true
  | .blkb => true
  | .keyw m => decide (m < p.cMax)

/-- A host line is well formed when the register it names is (R60). -/
def HostLine.wf (p : Params) (l : HostLine) : Bool :=
  match l with
  | .rd r => r.wf p
  | .wr r _ => r.wf p

end Sys2Proof
end

