-- ==== Sys2Proof/Decode.lean ====
section
/-! DEFINITION. Decoding of command words and of bus accesses, each total and rejecting by name, and after
each its encoder (30_encoding.md R52 to R59, 20_memory.md R37, R41, R42). -/

namespace Sys2Proof

/-! ### Command words -/

/-- Why a command word is illegal (R55). Both kinds are handled alike: `IllegalCommand`, code 5. -/
inductive DecodeError where
  /-- `RSV`, bits 31:8, is not zero. -/
  | reservedBitsSet
  /-- `RSV` is zero and `OPC` is `0x00` or one of `0x04 .. 0xFF`. -/
  | unassignedOpcode
  deriving DecidableEq, Repr

/-- `OPC = cw[7:0]` (R53). -/
def opcField (cw : Word) : BitVec 8 := cw.extractLsb' 0 8

/-- `RSV = cw[31:8]` (R53). -/
def rsvField (cw : Word) : BitVec 24 := cw.extractLsb' 8 24

/-- The decoder of R59, total on the `2^32` command words. -/
def decode (cw : Word) : Except DecodeError Instr :=
  if rsvField cw ≠ 0 then .error .reservedBitsSet
  else if opcField cw = 0x01 then .ok .setup
  else if opcField cw = 0x02 then .ok .enc
  else if opcField cw = 0x03 then .ok .dec
  else .error .unassignedOpcode

/-- The opcode of a command (R54). -/
def opcodeOf (i : Instr) : BitVec 8 :=
  match i with
  | .setup => 0x01
  | .enc => 0x02
  | .dec => 0x03

/-- The command word of a command, in format C: `RSV` zero above `OPC` (R52, R54). -/
def encode (i : Instr) : Word := (0 : BitVec 24) ++ opcodeOf i

/-- What the decoder reads from an instruction of the table, given as a number whose bits are the
`nbits` bits of the word, bit 0 the least significant. -/
def decodeTableWord (nbits w : Nat) : Option Instr :=
  if w % 2 ^ nbits < 2 ^ 32 then
    match decode (BitVec.ofNat 32 (w % 2 ^ nbits)) with
    | .ok i => some i
    | .error _ => none
  else none

/-! ### Register offsets and bus accesses -/

/-- The byte offset of a register from `BASE` (R37). -/
def Reg.offset (r : Reg) : Nat :=
  match r with
  | .cmd => 0x000
  | .status => 0x004
  | .rounds => 0x008
  | .keylen => 0x00C
  | .blka => 0x010
  | .blkb => 0x014
  | .keyw m => 0x100 + 4 * m

/-- The register at a byte offset (R37), or why there is none: alignment is looked at first, then the
register map (R41, R42). -/
def decodeOffset (p : Params) (off : Nat) : Except AccessError Reg :=
  if off % 4 ≠ 0 then .error .misaligned
  else if off = 0x000 then .ok .cmd
  else if off = 0x004 then .ok .status
  else if off = 0x008 then .ok .rounds
  else if off = 0x00C then .ok .keylen
  else if off = 0x010 then .ok .blka
  else if off = 0x014 then .ok .blkb
  else if 0x100 ≤ off ∧ off < 0x100 + 4 * p.cMax then .ok (.keyw ((off - 0x100) / 4))
  else .error .reservedOffset

/-- The register at a bus address: the effective address is `BASE + offset` (R94). -/
def decodeAddress (p : Params) (addr : Nat) : Except AccessError Reg :=
  if addr < p.base then .error .belowBase
  else decodeOffset p (addr - p.base)

/-- The host line that a bus access carries, or why the interface does not accept the access (R41, R42,
R99). -/
def decodeAccess (p : Params) (a : BusAccess) : Except AccessError HostLine :=
  match a with
  | .rd32 addr =>
    match decodeAddress p addr with
    | .ok r => .ok (.rd r)
    | .error e => .error e
  | .wr32 addr v =>
    match decodeAddress p addr with
    | .ok r => .ok (.wr r v)
    | .error e => .error e
  | .otherWidth _ _ _ => .error .otherWidth

/-- The bus access that a host line stands for (R60). -/
def encodeLine (p : Params) (l : HostLine) : BusAccess :=
  match l with
  | .rd r => .rd32 (p.base + r.offset)
  | .wr r v => .wr32 (p.base + r.offset) v

end Sys2Proof
end

