-- ==== Sys2Proof/Machine/State.lean ====
section
/-! DEFINITION. The state of one core (10_state.md R32) and its value after reset (R33), with three fields of
the model's own: the parameters, the events still to arrive, and the words that reads have returned. -/

namespace Sys2Proof.Machine

/-- A constructed context: the pair (`roundCount`, `roundKeys`) (R16). -/
structure Context where
  /-- `CTX.R`, the round count, 32 bits (R17). -/
  R : Word
  /-- `CTX.S`, the round-key table: exactly `2 * (R + 1)` words, index 0 first (R18). -/
  S : List Word
  deriving DecidableEq, Repr

/-- The state of one core. -/
structure State where
  /-- The parameters `R_MAX`, `B_MAX`, `BASE` of this core; the model's own field, changed by nothing. -/
  params : Params
  /-- `CTX`: the slot, empty or holding one context. `CTX.VALID` is `ctx.isSome` (R16). -/
  ctx : Option Context
  /-- `BLKA`, the block's word `A` (R21). -/
  blka : Word
  /-- `BLKB`, the block's word `B` (R21). -/
  blkb : Word
  /-- `ROUNDS`, the round count for the next `SETUP` (R22). -/
  rounds : Word
  /-- `KEYLEN`, the key length in bytes for the next `SETUP` (R23). -/
  keylen : Word
  /-- `KEYW[0 .. C_MAX-1]`, the key buffer, `KEYW[0]` first (R24). -/
  keyw : List Word
  /-- `STATUS.ERR`, 4 bits (R26). -/
  err : BitVec 4
  /-- The events still to be handled, in arrival order, the next one first (R48); the model's own
  field, which stands for the host. -/
  arrivals : List HostEvent
  /-- The words that the host's reads have returned, the latest first; the model's own field, which
  stands for what the host has seen. -/
  replies : List Word
  deriving DecidableEq, Repr

/-- The core has no runtime fault: all arithmetic wraps, all indices are in range, and every error is a
code in `STATUS.ERR` (60_exceptions.md R114, R124). So no constructor stands here. -/
inductive Fault where
  deriving DecidableEq, Repr

/-- Where the model gives no meaning. -/
inductive Refusal where
  /-- Raised by an arm of `exec` whose command has no meaning yet. Safe: nothing is claimed of it. -/
  | notModelled (mnemonic : String)
  /-- Raised by `handleEvent` for an access that the interface does not accept: the spec says that the
  model refuses the access (R41, R42, R99). Safe: nothing is claimed of what follows. -/
  | accessNotAccepted (why : AccessError)
  deriving DecidableEq, Repr

/-- The state after reset of a core with parameters `p` (R33): the slot empty, every register zero. -/
def State.resetWith (p : Params) : State where
  params := p
  ctx := none
  blka := 0
  blkb := 0
  rounds := 0
  keylen := 0
  keyw := List.replicate p.cMax 0
  err := 0
  arrivals := []
  replies := []

/-- The state after reset of a core with the default capacities (R8, R33). -/
def State.reset : State := State.resetWith Params.default

end Sys2Proof.Machine
end

