-- ==== Sys2Proof/Machine/Flags.lean ====
section
/-! DEFINITION. The status register (10_state.md R26) and the error codes (60_exceptions.md R115). The core has
no condition codes (R29): no arithmetic operation sets a flag. -/

namespace Sys2Proof.Machine

/-- The five errors (R115). `OK`, code 0, is the absence of an error. -/
inductive ErrorCode where
  /-- Code 1, of kind `InvalidParameter`: `SETUP` with `ROUNDS = 0` (R116). -/
  | roundsZero
  /-- Code 2, of kind `InvalidParameter`: `SETUP` with `KEYLEN = 0` (R117). -/
  | keyEmpty
  /-- Code 3: `SETUP` with an operand above the core's capacity (R118). -/
  | capacityExceeded
  /-- Code 4: `ENC` or `DEC` with the slot empty (R119). -/
  | noContext
  /-- Code 5: a write to `CMD` of a word that is no command word (R120). -/
  | illegalCommand
  deriving DecidableEq, Repr

/-- The number that `STATUS.ERR` takes (R115). -/
def ErrorCode.code (e : ErrorCode) : BitVec 4 :=
  match e with
  | .roundsZero => 1
  | .keyEmpty => 2
  | .capacityExceeded => 3
  | .noContext => 4
  | .illegalCommand => 5

/-- `CTX.VALID`, the bit read as `STATUS.VALID` (R16, R26). -/
def validBit (s : State) : BitVec 1 := BitVec.ofBool s.ctx.isSome

/-- The word that a read of `STATUS` returns: `VALID` in bit 0, `ERR` in bits 11:8, every other bit
0 (R26). -/
def statusWord (s : State) : Word := (0 : BitVec 20) ++ s.err ++ (0 : BitVec 7) ++ validBit s

end Sys2Proof.Machine
end

