-- ==== Sys2Proof/Machine/Arith.lean ====
section
/-! DEFINITION. Arithmetic on words and bytes (00_scope.md R11 to R14). -/

namespace Sys2Proof.Machine

/-- Addition modulo `2^32`; overflow is discarded silently (R11). -/
def add32 (x y : Word) : Word := x + y

/-- Subtraction modulo `2^32` (R11). -/
def sub32 (x y : Word) : Word := x - y

/-- Rotate left; only the amount modulo 32 matters (R13). -/
def rotl32 (x : Word) (n : Nat) : Word :=
  if n % 32 = 0 then x else (x <<< (n % 32)) ||| (x >>> (32 - n % 32))

/-- Rotate right; only the amount modulo 32 matters (R13). -/
def rotr32 (x : Word) (n : Nat) : Word :=
  if n % 32 = 0 then x else (x >>> (n % 32)) ||| (x <<< (32 - n % 32))

/-- `byte(w, k)`: bits `8k+7 : 8k` of `w`, for `k` in `0 .. 3` (R14). -/
def byte (w : Word) (k : Nat) : Byte := w.extractLsb' (8 * k) 8

/-- `le32`: a word from four bytes, the first byte least significant (R14). -/
def le32 (b0 b1 b2 b3 : Byte) : Word := b3 ++ b2 ++ b1 ++ b0

end Sys2Proof.Machine
end

