-- ==== Sys2Proof/Machine/Operands.lean ====
section
/-! DEFINITION. The implicit operands of the commands (30_encoding.md R57): the key bytes, the words of the
table, the two words of the block and its eight bytes. -/

namespace Sys2Proof.Machine

/-- Key byte `k` of the key buffer: `byte(KEYW[k div 4], k mod 4)` (R24). Under the invariant the index is
in range for every `k < B_MAX`; the 0 beyond the buffer is read by no rule. -/
def keyByte (keyw : List Word) (k : Nat) : Byte := byte (keyw.getD (k / 4) 0) (k % 4)

/-- The first `b` key bytes, byte 0 first: the key argument of `SETUP` (R24). -/
def keyBytes (keyw : List Word) (b : Nat) : List Byte := (List.range b).map (keyByte keyw)

/-- `S[i]`, a word of the context's table (R18). Every index a command uses is in range (R43); the 0
beyond the table is read by no rule. -/
def tableWord (c : Context) (i : Nat) : Word := c.S.getD i 0

/-- The block as the pair of its words, `(BLKA, BLKB)` (R21). -/
def block (s : State) : Word × Word := (s.blka, s.blkb)

/-- Byte `k` of the block, `k` in `0 .. 7`: bytes 0 to 3 are `BLKA`'s, bytes 4 to 7 are `BLKB`'s
(R21, R38). -/
def blockByte (s : State) (k : Nat) : Byte :=
  if k < 4 then byte s.blka k else byte s.blkb (k - 4)

/-- `t = 2 * (rounds + 1)`, the number of table words (R68). -/
def tableSize (rounds : Nat) : Nat := 2 * (rounds + 1)

/-- `c = ceil(b / 4)`, the number of key words (R68). -/
def keyWordCount (b : Nat) : Nat := (b + 3) / 4

/-- `v = 3 * max(t, c)`, the number of mixing iterations (R68). -/
def mixCount (t c : Nat) : Nat := 3 * max t c

end Sys2Proof.Machine
end

