-- ==== Sys2Proof/Machine/Ops.lean ====
section
/-! DEFINITION. The operations over the state that the commands and the host's accesses share: taking an error,
ending in success, committing a context, clearing the key, writing the block, reading and writing a
register of the interface, and reset. -/

namespace Sys2Proof.Machine

/-- Error entry, `raise Error(code)` (60_exceptions.md R124): `STATUS.ERR` takes the code and nothing else
changes. There is no return from it and nothing to restore (R126): the next event is handled like any
other. -/
def raiseError (e : ErrorCode) (s : State) : State := { s with err := e.code }

/-- The end of a command that raises nothing: `STATUS.ERR` takes 0 (R125). -/
def succeed (s : State) : State := { s with err := 0 }

/-- Commit of a context into the slot; the old one is gone (40_key_schedule.md R72). -/
def commitContext (c : Context) (s : State) : State := { s with ctx := some c }

/-- Clearing of the key: all `C_MAX` words of the buffer, and `KEYLEN` (R73). -/
def clearKey (s : State) : State :=
  { s with keyw := List.replicate s.params.cMax 0, keylen := 0 }

/-- Write-back of the block (41_encrypt.md R82, 42_decrypt.md R90). -/
def writeBlock (ab : Word × Word) (s : State) : State := { s with blka := ab.1, blkb := ab.2 }

/-- The word that `RD reg` returns (43_host_access.md R94). `CMD` and `KEYW[m]` are write only and
read as zero (R98). -/
def readReg (r : Reg) (s : State) : Word :=
  match r with
  | .cmd => 0
  | .status => statusWord s
  | .rounds => s.rounds
  | .keylen => s.keylen
  | .blka => s.blka
  | .blkb => s.blkb
  | .keyw _ => 0

/-- The word that a register of the interface holds, whether or not the host can read it (R33). `CMD`
stores nothing (R25). -/
def heldWord (r : Reg) (s : State) : Word :=
  match r with
  | .cmd => 0
  | .status => statusWord s
  | .rounds => s.rounds
  | .keylen => s.keylen
  | .blka => s.blka
  | .blkb => s.blkb
  | .keyw m => s.keyw.getD m 0

/-- The byte that the register at a bus address holds there: register byte `k` lies at
`BASE + offset + k` (20_memory.md R40). This is a view of the state, not an access: the interface
accepts no byte access (R41). -/
def heldByteAt (addr : Nat) (s : State) : Option Byte :=
  if addr < s.params.base then none
  else
    match decodeOffset s.params ((addr - s.params.base) / 4 * 4) with
    | .ok r => some (byte (heldWord r s) ((addr - s.params.base) % 4))
    | .error _ => none

/-- The store that `WR reg, value` makes to an operand register (R95). A write to `STATUS` is ignored
(R97), and `CMD` stores nothing (R25): what a write to `CMD` starts is `commandWrite`. -/
def writeReg (r : Reg) (v : Word) (s : State) : State :=
  match r with
  | .cmd => s
  | .status => s
  | .rounds => { s with rounds := v }
  | .keylen => { s with keylen := v }
  | .blka => { s with blka := v }
  | .blkb => { s with blkb := v }
  | .keyw m => { s with keyw := s.keyw.set m v }

/-- The end of a read: the word is returned to the host. -/
def reply (v : Word) (s : State) : State := { s with replies := v :: s.replies }

/-- Reset of the core (70_reset_and_hazards.md R136): every piece of the core's state takes its value of
R33. What the host has seen, and what it does next, are not the core's. -/
def resetCore (s : State) : State :=
  { State.resetWith s.params with arrivals := s.arrivals, replies := s.replies }

end Sys2Proof.Machine
end

