-- ==== Sys2Proof/Machine/Decrypt.lean ====
section
/-! DEFINITION. The inverse block transform, command `DEC` (42_decrypt.md R86 to R93). -/

namespace Sys2Proof.Machine

/-- The new `B` of round `r`: subtract the table word, then rotate right by the other word, then xor
with it (R88). -/
def decRoundB (c : Context) (r : Nat) (ab : Word × Word) : Word :=
  rotr32 (sub32 ab.2 (tableWord c (2 * r + 1))) ab.1.toNat ^^^ ab.1

/-- The new `A` of round `r`, from the `B` just computed in the same round (R88). -/
def decRoundA (c : Context) (r : Nat) (a b : Word) : Word :=
  rotr32 (sub32 a (tableWord c (2 * r))) b.toNat ^^^ b

/-- Round `r` of decryption: `B` first, then `A` (R88). -/
def decRound (c : Context) (r : Nat) (ab : Word × Word) : Word × Word :=
  (decRoundA c r ab.1 (decRoundB c r ab), decRoundB c r ab)

/-- Rounds `n` down to 1, in decreasing order (R88). -/
def decRounds (c : Context) : Nat → Word × Word → Word × Word
  | 0, ab => ab
  | n + 1, ab => decRounds c n (decRound c (n + 1) ab)

/-- The un-whitening, after the last round only (R89). -/
def unwhiten (c : Context) (ab : Word × Word) : Word × Word :=
  (sub32 ab.1 (tableWord c 0), sub32 ab.2 (tableWord c 1))

/-- `dec`: the total function of a context and a block that `DEC` computes (R91). -/
def decBlock (c : Context) (ab : Word × Word) : Word × Word :=
  unwhiten c (decRounds c c.R.toNat ab)

/-- `DEC` (R86): code 4 when the slot is empty (R87), else the block decrypted in place. -/
def execDec (s : State) : Host.Outcome State Fault Refusal :=
  match s.ctx with
  | none => .next (raiseError .noContext s)
  | some c => .next (succeed (writeBlock (decBlock c (block s)) s))

end Sys2Proof.Machine
end

