-- ==== Sys2Proof/Machine/Encrypt.lean ====
section
/-! DEFINITION. The forward block transform, command `ENC` (41_encrypt.md R78 to R85). -/

namespace Sys2Proof.Machine

/-- The new `A` of round `r`: xor, then rotate left by the other word, then add the table word (R81). -/
def encRoundA (c : Context) (r : Nat) (ab : Word × Word) : Word :=
  add32 (rotl32 (ab.1 ^^^ ab.2) ab.2.toNat) (tableWord c (2 * r))

/-- The new `B` of round `r`, from the `A` just computed in the same round (R81). -/
def encRoundB (c : Context) (r : Nat) (a b : Word) : Word :=
  add32 (rotl32 (b ^^^ a) a.toNat) (tableWord c (2 * r + 1))

/-- Round `r` of encryption: `A` first, then `B` (R81). -/
def encRound (c : Context) (r : Nat) (ab : Word × Word) : Word × Word :=
  (encRoundA c r ab, encRoundB c r (encRoundA c r ab) ab.2)

/-- Rounds `1 .. n`, in increasing order (R81). -/
def encRounds (c : Context) : Nat → Word × Word → Word × Word
  | 0, ab => ab
  | n + 1, ab => encRound c (n + 1) (encRounds c n ab)

/-- The whitening, before the first round only (R80). -/
def whiten (c : Context) (ab : Word × Word) : Word × Word :=
  (add32 ab.1 (tableWord c 0), add32 ab.2 (tableWord c 1))

/-- `enc`: the total function of a context and a block that `ENC` computes (R83). -/
def encBlock (c : Context) (ab : Word × Word) : Word × Word :=
  encRounds c c.R.toNat (whiten c ab)

/-- `ENC` (R78): code 4 when the slot is empty (R79), else the block encrypted in place. -/
def execEnc (s : State) : Host.Outcome State Fault Refusal :=
  match s.ctx with
  | none => .next (raiseError .noContext s)
  | some c => .next (succeed (writeBlock (encBlock c (block s)) s))

end Sys2Proof.Machine
end

