-- ==== Sys2Proof/Machine/KeySchedule.lean ====
section
/-! DEFINITION. The key scheduler, command `SETUP` (40_key_schedule.md R64 to R77). -/

namespace Sys2Proof.Machine

/-- The magic constant `P` (R69). -/
def magicP : Word := 0xB7E15163

/-- The magic constant `Q` (R69). -/
def magicQ : Word := 0x9E3779B9

/-- `n` words from `w` on, each the one before plus `Q`. -/
def initFrom : Nat → Word → List Word
  | 0, _ => []
  | n + 1, w => w :: initFrom n (add32 w magicQ)

/-- `init_table(t)`: `S'[0] = P`, then `S'[i] = S'[i-1] + Q` for `i` in `1 .. t-1` (R69). -/
def initTable (t : Nat) : List Word := initFrom t magicP

/-- The loop of `pack_key`: byte `k` of the key is OR-ed into `L[k div 4]`, shifted left by
`8 * (k mod 4)`; `k` counts on from its start value. -/
def packInto : List Byte → Nat → List Word → List Word
  | [], _, L => L
  | x :: xs, k, L =>
    packInto xs (k + 1) (L.set (k / 4) (L.getD (k / 4) 0 ||| (x.setWidth 32 <<< (8 * (k % 4)))))

/-- `pack_key`: the key bytes packed into `ceil(b / 4)` words that start at zero (R70). -/
def packKey (key : List Byte) : List Word :=
  packInto key 0 (List.replicate (keyWordCount key.length) 0)

/-- The working values of `mix` (R30): they exist inside one command only and are no part of `State`. -/
structure MixState where
  /-- `S'`, the working table. -/
  S : List Word
  /-- `L`, the key words. -/
  L : List Word
  /-- The accumulator `a`. -/
  a : Word
  /-- The accumulator `acc_b`. -/
  accB : Word
  /-- The index into `S'`. -/
  i : Nat
  /-- The index into `L`. -/
  j : Nat
  deriving DecidableEq, Repr

/-- The new `S'[i]`, which is also the new `a` (R71). -/
def mixA (m : MixState) : Word := rotl32 (add32 (add32 (m.S.getD m.i 0) m.a) m.accB) 3

/-- The new `L[j]`, which is also the new `acc_b`, from the new `a` (R71). -/
def mixB (m : MixState) (a : Word) : Word :=
  rotl32 (add32 (add32 (m.L.getD m.j 0) a) m.accB) (add32 a m.accB).toNat

/-- One iteration of `mix` for a table of `t` and a key of `c` words (R71). -/
def mixStep (t c : Nat) (m : MixState) : MixState where
  S := m.S.set m.i (mixA m)
  L := m.L.set m.j (mixB m (mixA m))
  a := mixA m
  accB := mixB m (mixA m)
  i := (m.i + 1) % t
  j := (m.j + 1) % c

/-- `n` iterations of `mix`, in order (R71, R149). -/
def mixIter (t c : Nat) : Nat → MixState → MixState
  | 0, m => m
  | n + 1, m => mixIter t c n (mixStep t c m)

/-- The start of `mix`: accumulators and indices zero (R71). -/
def mixStart (S L : List Word) : MixState where
  S := S
  L := L
  a := 0
  accB := 0
  i := 0
  j := 0

/-- `mix(S', L, t, c, v)`: the table after `v` iterations (R71). -/
def mix (S L : List Word) (t c v : Nat) : List Word := (mixIter t c v (mixStart S L)).S

/-- `expand(key, rounds)`: the round-key table as a function of the key bytes and the round count alone
(R75), defined for every key and every round count (90_conflicts.md C5). -/
def expand (key : List Byte) (rounds : Nat) : List Word :=
  mix (initTable (tableSize rounds)) (packKey key) (tableSize rounds) (keyWordCount key.length)
    (mixCount (tableSize rounds) (keyWordCount key.length))

/-- The checks of `SETUP`, in the order of R122: the first that applies is the one reported (R65, R66,
R67). Comparisons are unsigned (R112). -/
def setupError (s : State) : Option ErrorCode :=
  if s.rounds = 0 then some .roundsZero
  else if s.keylen = 0 then some .keyEmpty
  else if s.params.rMax < s.rounds.toNat ∨ s.params.bMax < s.keylen.toNat then some .capacityExceeded
  else none

/-- The context that `SETUP` constructs from `ROUNDS`, `KEYLEN` and the key buffer (R64). -/
def setupContext (s : State) : Context where
  R := s.rounds
  S := expand (keyBytes s.keyw s.keylen.toNat) s.rounds.toNat

/-- `SETUP` (R64): the checks, then the commit (R72), then the clearing of the key (R73). -/
def execSetup (s : State) : Host.Outcome State Fault Refusal :=
  match setupError s with
  | some e => .next (raiseError e s)
  | none => .next (succeed (clearKey (commitContext (setupContext s) s)))

end Sys2Proof.Machine
end

