-- ==== Sys2Proof/Machine/HostAccess.lean ====
section
/-! DEFINITION. The steps of the second agent, the host: the register read `RD` and the register write `WR`
(43_host_access.md R94 to R100), and the reset event (70_reset_and_hazards.md R136). -/

namespace Sys2Proof.Machine

/-- `WR CMD, cw` (R96): the core decodes the word and executes the command it names; an illegal word
executes nothing and raises `IllegalCommand` (30_encoding.md R55). -/
def commandWrite (cw : Word) (s : State) : Host.Outcome State Fault Refusal :=
  match decode cw with
  | .ok i => exec i s
  | .error _ => .next (raiseError .illegalCommand s)

/-- `RD reg` (R94): the word is returned and no state of the core changes (20_memory.md R45). -/
def hostRead (r : Reg) (s : State) : Host.Outcome State Fault Refusal :=
  .next (reply (readReg r s) s)

/-- `WR reg, value` (R95, R96, R97). -/
def hostWrite (r : Reg) (v : Word) (s : State) : Host.Outcome State Fault Refusal :=
  match r with
  | .cmd => commandWrite v s
  | .status => .next (writeReg .status v s)
  | .rounds => .next (writeReg .rounds v s)
  | .keylen => .next (writeReg .keylen v s)
  | .blka => .next (writeReg .blka v s)
  | .blkb => .next (writeReg .blkb v s)
  | .keyw m => .next (writeReg (.keyw m) v s)

/-- One host line. -/
def execLine (l : HostLine) (s : State) : Host.Outcome State Fault Refusal :=
  match l with
  | .rd r => hostRead r s
  | .wr r v => hostWrite r v s

/-- One event at the interface: an accepted access has its line's effect, any other access is refused
(R99), and a reset gives the reset state (R136). -/
def handleEvent (e : HostEvent) (s : State) : Host.Outcome State Fault Refusal :=
  match e with
  | .access a =>
    match decodeAccess s.params a with
    | .ok l => execLine l s
    | .error why => .refused (.accessNotAccepted why)
  | .reset => .next (resetCore s)

end Sys2Proof.Machine
end

