-- ==== Sys2Proof/Machine/Step.lean ====
section
/-! DEFINITION. One step of the machine: the event at the head of the arrival order is handled to completion
(20_memory.md R48). With no event the core is idle and nothing changes (70_reset_and_hazards.md R150). -/

namespace Sys2Proof.Machine

/-- One step. -/
def step (s : State) : Host.Outcome State Fault Refusal :=
  match s.arrivals with
  | [] => .next s
  | e :: rest => handleEvent e { s with arrivals := rest }

/-- `s` with a write to `CMD` of a table word as the next event: the one way in which a command word
reaches the core (10_state.md R25). -/
def State.withFetchWord (s : State) (nbits w : Nat) : State :=
  { s with
    arrivals :=
      .access (.wr32 (s.params.base + Reg.cmd.offset) (BitVec.ofNat 32 (w % 2 ^ nbits))) :: s.arrivals }

end Sys2Proof.Machine
end

