-- ==== Sys2Proof/Machine/HostProgram.lean ====
section
/-! DEFINITION. The three pseudo-instructions of the host-program notation (30_encoding.md R60 to R62): each
expands to host lines, and host lines to the accesses that carry them. -/

namespace Sys2Proof.Machine

/-- The line `CMD <name>` (R60). -/
def cmdLine (i : Instr) : HostLine := .wr .cmd (encode i)

/-- `le32(key[4m], key[4m+1], key[4m+2], key[4m+3])` with `key[k] = 0` for `k >= b` (R61). -/
def keyWordOf (key : List Byte) (m : Nat) : Word :=
  le32 (key.getD (4 * m) 0) (key.getD (4 * m + 1) 0) (key.getD (4 * m + 2) 0) (key.getD (4 * m + 3) 0)

/-- The lines that load the key: `WR KEYW[m]` for `m` in `0 .. c-1` (R61). -/
def loadKeyLines (key : List Byte) : List HostLine :=
  (List.range (keyWordCount key.length)).map fun m => .wr (.keyw m) (keyWordOf key m)

/-- `construct(key, rounds)` (R61). A `WR` carries 32 bits and R61 does not say what `WR KEYLEN, b` writes for
a key of `b >= 2^32` bytes: the model writes `b mod 2^32` (DESIGN CHOICE, log entry 16). -/
def constructLines (key : List Byte) (rounds : Word) : List HostLine :=
  loadKeyLines key ++
    [.wr .keylen (BitVec.ofNat 32 key.length), .wr .rounds rounds, cmdLine .setup, .rd .status]

/-- The word `A` of an 8-byte buffer (R62). -/
def bufferA (x : Vector Byte 8) : Word := le32 x[0] x[1] x[2] x[3]

/-- The word `B` of an 8-byte buffer (R62). -/
def bufferB (x : Vector Byte 8) : Word := le32 x[4] x[5] x[6] x[7]

/-- The 8-byte buffer of two words: byte `k` of `A`, then byte `k` of `B`, `k` in `0 .. 3` (R62). -/
def bufferOf (a b : Word) : Vector Byte 8 :=
  #v[byte a 0, byte a 1, byte a 2, byte a 3, byte b 0, byte b 1, byte b 2, byte b 3]

/-- The lines that load the block (R62). -/
def loadBlockLines (x : Vector Byte 8) : List HostLine :=
  [.wr .blka (bufferA x), .wr .blkb (bufferB x)]

/-- The lines that run a command on the block already in `BLKA`, `BLKB`, and read the status and the block
back: the form of R62 with the two `WR` lines left out. -/
def heldBlockLines (i : Instr) : List HostLine := [cmdLine i, .rd .status, .rd .blka, .rd .blkb]

/-- The lines that load the block, run a command on it, and read the status and the block back (R62). -/
def blockLines (i : Instr) (x : Vector Byte 8) : List HostLine := loadBlockLines x ++ heldBlockLines i

/-- `encryptBlock(block)` (R62). -/
def encryptBlockLines (x : Vector Byte 8) : List HostLine := blockLines .enc x

/-- `decryptBlock(block)` (R62). -/
def decryptBlockLines (x : Vector Byte 8) : List HostLine := blockLines .dec x

/-- `encryptBlock` of the block already in `BLKA`, `BLKB` (R62). -/
def encryptHeldBlockLines : List HostLine := heldBlockLines .enc

/-- `decryptBlock` of the block already in `BLKA`, `BLKB`, as of what was just encrypted (R62). -/
def decryptHeldBlockLines : List HostLine := heldBlockLines .dec

/-- The events that a host program puts on the bus (R60). -/
def eventsOf (p : Params) (ls : List HostLine) : List HostEvent :=
  ls.map fun l => .access (encodeLine p l)

end Sys2Proof.Machine
end

