-- ==== Sys2Proof/Safety.lean ====
section
/-! DEFINITION. What claims call a good state, an accepted event and what the host can see. -/

namespace Sys2Proof.Machine

/-- A context that the core can hold (10_state.md R17, R18, 44_properties.md R104). -/
structure Context.Wf (p : Params) (c : Context) : Prop where
  rounds_pos : 1 ≤ c.R.toNat
  rounds_le : c.R.toNat ≤ p.rMax
  table_length : c.S.length = 2 * (c.R.toNat + 1)

/-- The invariant of the machine: the parameters obey R8 and R46, the key buffer has `C_MAX` words (R24),
`STATUS.ERR` is at most 5 (R115), and a context in the slot is well formed (R104). -/
structure State.Inv (s : State) : Prop where
  params_wf : s.params.wf = true
  keyw_length : s.keyw.length = s.params.cMax
  err_le : s.err.toNat ≤ 5
  ctx_wf : ∀ c, s.ctx = some c → c.Wf s.params

/-- An event that the interface accepts: a reset, or an access that carries a host line (R41, R42). -/
def Accepted (p : Params) (e : HostEvent) : Prop :=
  match e with
  | .reset => True
  | .access a => ∃ l, decodeAccess p a = .ok l

/-- The next event to be handled is an access that carries the line `l`. -/
def State.NextLine (s : State) (l : HostLine) : Prop :=
  ∃ a rest, s.arrivals = .access a :: rest ∧ decodeAccess s.params a = .ok l

/-- The next event to be handled is a write to `CMD` that starts the command `i`. -/
def State.NextCommand (s : State) (i : Instr) : Prop :=
  ∃ cw, s.NextLine (.wr .cmd cw) ∧ decode cw = .ok i

/-- The next event to be handled is a reset. -/
def State.NextReset (s : State) : Prop := ∃ rest, s.arrivals = .reset :: rest

/-- An event that starts the command `i`. -/
def Starts (p : Params) (i : Instr) (e : HostEvent) : Prop :=
  ∃ a cw, e = .access a ∧ decodeAccess p a = .ok (.wr .cmd cw) ∧ decode cw = .ok i

/-- `s` with its next event taken off the arrival order. -/
def State.popped (s : State) : State := { s with arrivals := s.arrivals.tail }

/-- The state of an outcome, where there is one. -/
def stateOf (o : Host.Outcome State Fault Refusal) : Option State :=
  match o with
  | .next s => some s
  | .fault _ => none
  | .refused _ => none

/-- What the host has seen at the end of a run: the words its reads returned. -/
def observed (o : Host.Outcome State Fault Refusal) : Option (List Word) :=
  (stateOf o).map State.replies

/-- `n` steps, stopping at the first refusal: `Host.Core.run` of the machine, over its own `State`. -/
def runFor : Nat → State → Host.Outcome State Fault Refusal
  | 0, s => .next s
  | n + 1, s =>
    match step s with
    | .next t => runFor n t
    | .fault f => .fault f
    | .refused r => .refused r

/-- A run of `n` steps that neither stops nor leaves the invariant. -/
def SafeRun (n : Nat) (s : State) : Prop :=
  ∃ t, runFor n s = .next t ∧ t.Inv

end Sys2Proof.Machine
end

