-- ==== Sys2Proof/Certificates/Slice0/Obligations.lean ====
section
/-! DEFINITION. The statements about the model, one per definition under `Obligations`, and the recurrences
in which three of them say what a command computes. The recurrences are written over sequences indexed by
the iteration or the round, from the spec's text and not from the model's loops. -/

namespace Sys2Proof.Spec

open Sys2Proof.Machine

/-- The words of the table and of the key, and the accumulators, after each iteration of `mix`
(40_key_schedule.md R71): `S n`, `L n`, `a n`, `b n` are the values after `n` iterations; iteration `n`
works on index `n mod t` of the table and `n mod c` of the key words. -/
structure MixTrace (t c : Nat) (S L : Nat → Nat → Word) (a b : Nat → Word) : Prop where
  a_zero : a 0 = 0
  b_zero : b 0 = 0
  a_succ : ∀ n, a (n + 1) = rotl32 (S n (n % t) + a n + b n) 3
  b_succ : ∀ n, b (n + 1) = rotl32 (L n (n % c) + a (n + 1) + b n) ((a (n + 1) + b n).toNat % 32)
  S_succ : ∀ n i, S (n + 1) i = if i = n % t then a (n + 1) else S n i
  L_succ : ∀ n j, L (n + 1) j = if j = n % c then b (n + 1) else L n j

/-- The words of the block after the whitening (index 0) and after each round of encryption
(41_encrypt.md R80, R81). -/
structure EncTrace (c : Context) (a0 b0 : Word) (A B : Nat → Word) : Prop where
  A_zero : A 0 = a0 + tableWord c 0
  B_zero : B 0 = b0 + tableWord c 1
  A_round : ∀ r, 1 ≤ r → r ≤ c.R.toNat →
    A r = rotl32 (A (r - 1) ^^^ B (r - 1)) (B (r - 1)).toNat + tableWord c (2 * r)
  B_round : ∀ r, 1 ≤ r → r ≤ c.R.toNat →
    B r = rotl32 (B (r - 1) ^^^ A r) (A r).toNat + tableWord c (2 * r + 1)

/-- The words of the block before the rounds of decryption (index `R`) and after round `r`
(index `r - 1`), for `r` from `R` down to 1 (42_decrypt.md R88). -/
structure DecTrace (c : Context) (a0 b0 : Word) (A B : Nat → Word) : Prop where
  A_start : A c.R.toNat = a0
  B_start : B c.R.toNat = b0
  B_round : ∀ r, 1 ≤ r → r ≤ c.R.toNat →
    B (r - 1) = rotr32 (B r - tableWord c (2 * r + 1)) (A r).toNat ^^^ A r
  A_round : ∀ r, 1 ≤ r → r ≤ c.R.toNat →
    A (r - 1) = rotr32 (A r - tableWord c (2 * r)) (B (r - 1)).toNat ^^^ B (r - 1)

/-- Two states that agree on everything but the key buffer and the content of the context: in both the
slot is empty, or in both it is valid. -/
structure SameButSecrets (s u : State) : Prop where
  params : u.params = s.params
  valid : u.ctx.isSome = s.ctx.isSome
  blka : u.blka = s.blka
  blkb : u.blkb = s.blkb
  rounds : u.rounds = s.rounds
  keylen : u.keylen = s.keylen
  err : u.err = s.err
  arrivals : u.arrivals = s.arrivals
  replies : u.replies = s.replies

/-- The operands on which `SETUP` succeeds: exactly those that no check of R65, R66 and R67 rejects. -/
structure SetupAccepts (s : State) : Prop where
  rounds_ne : s.rounds ≠ 0
  keylen_ne : s.keylen ≠ 0
  rounds_le : s.rounds.toNat ≤ s.params.rMax
  keylen_le : s.keylen.toNat ≤ s.params.bMax

end Sys2Proof.Spec

open Sys2Proof Sys2Proof.Machine Sys2Proof.Spec

/-! ### Reset and the invariant -/

/-- R33: after reset the slot is empty, every register is zero and `STATUS` reads zero, whatever the
parameters. -/
def Obligations.ResetLeavesSlotEmptyAndRegistersZero : Prop :=
  ∀ p : Params,
    (State.resetWith p).ctx = none ∧ (State.resetWith p).blka = 0 ∧ (State.resetWith p).blkb = 0 ∧
    (State.resetWith p).rounds = 0 ∧ (State.resetWith p).keylen = 0 ∧
    (State.resetWith p).keyw.length = p.cMax ∧
    (∀ m, m < p.cMax → (State.resetWith p).keyw[m]? = some 0) ∧
    (State.resetWith p).err = 0 ∧ statusWord (State.resetWith p) = 0x00000000 ∧
    State.reset = State.resetWith Params.default

/-- The reset state satisfies the invariant for every legal choice of the parameters (R8, R33). -/
def Obligations.ResetStateSatisfiesInvariant : Prop :=
  (∀ p : Params, p.wf = true → (State.resetWith p).Inv) ∧ State.reset.Inv

/-- Every step from a state that satisfies the invariant gives one that does: legal parameters, `C_MAX`
key words, `STATUS.ERR` at most 5, and a table of exactly `2 * (R + 1)` words with `1 <= R <= R_MAX`
(R24, R104, R115). -/
def Obligations.StepKeepsInvariant : Prop :=
  ∀ s t : State, s.Inv → step s = .next t → t.Inv

/-! ### Encodings -/

/-- R54, R59: the three command words, and no others, are legal. -/
def Obligations.ExactlyThreeCommandWordsAreLegal : Prop :=
  ∀ cw : Word,
    (decode cw = .ok .setup ↔ cw = 0x00000001) ∧
    (decode cw = .ok .enc ↔ cw = 0x00000002) ∧
    (decode cw = .ok .dec ↔ cw = 0x00000003) ∧
    ((∃ e, decode cw = .error e) ↔ cw ≠ 0x00000001 ∧ cw ≠ 0x00000002 ∧ cw ≠ 0x00000003)

/-- Command words and bus accesses decode to what they encode, and only what encodes a well-formed line
decodes to it (R37, R54, R94). -/
def Obligations.DecodeAndEncodeAgree : Prop :=
  (∀ i : Instr, i.wf = true → decode (encode i) = .ok i) ∧
  (∀ (cw : Word) (i : Instr), decode cw = .ok i → cw = encode i) ∧
  (∀ (p : Params) (l : HostLine), l.wf p = true → decodeAccess p (encodeLine p l) = .ok l) ∧
  (∀ (p : Params) (a : BusAccess) (l : HostLine),
    decodeAccess p a = .ok l → l.wf p = true ∧ a = encodeLine p l)

/-- A few words written out from the spec's encoding (R54, R55, 95_test_vectors.md X7 to X10). -/
def Obligations.SpecCommandWordsDecodeAsListed : Prop :=
  decode 0x00000001 = .ok .setup ∧ decode 0x00000002 = .ok .enc ∧ decode 0x00000003 = .ok .dec ∧
  decode 0x00000000 = .error .unassignedOpcode ∧ decode 0x00000004 = .error .unassignedOpcode ∧
  decode 0x00000102 = .error .reservedBitsSet ∧ decode 0x80000001 = .error .reservedBitsSet

/-! ### The step -/

/-- A step whose next event is a write to `CMD` of a legal command word runs that command, at the state
with the event taken off (R48, R96). The second clause is about the model's own way of placing a command
word, `withFetchWord` (log entry 3). -/
def Obligations.StepRunsTheDecodedCommand : Prop :=
  (∀ (s : State) (a : BusAccess) (rest : List HostEvent) (cw : Word) (i : Instr),
    s.arrivals = .access a :: rest → decodeAccess s.params a = .ok (.wr .cmd cw) →
    decode cw = .ok i → step s = exec i { s with arrivals := rest }) ∧
  (∀ (s : State) (i : Instr), step (s.withFetchWord 32 (encode i).toNat) = exec i s)

/-- R55: an illegal word written to `CMD` executes nothing; `STATUS.ERR` takes 5 and nothing else
changes. -/
def Obligations.IllegalCommandWordChangesOnlyErr : Prop :=
  ∀ (s : State) (rest : List HostEvent) (cw : Word),
    s.arrivals = .access (.wr32 s.params.base cw) :: rest →
    cw ≠ 0x00000001 → cw ≠ 0x00000002 → cw ≠ 0x00000003 →
    step s = .next { s with arrivals := rest, err := 5 }

/-- R150: with no event to handle the core is idle, for as many steps as one likes. -/
def Obligations.IdleCoreKeepsItsState : Prop :=
  ∀ (s : State) (n : Nat), s.arrivals = [] → runFor n s = .next s

/-- A step does not depend on the events after the one it handles, and leaves them as they are (R48). The
queue of events is the model's own (log entry 3). -/
def Obligations.LaterEventsDoNotInfluenceAStep : Prop :=
  ∀ (s t : State) (e : HostEvent) (rest other : List HostEvent),
    step { s with arrivals := e :: rest } = .next t →
    t.arrivals = rest ∧
    step { s with arrivals := e :: other } = .next { t with arrivals := other }

/-- From every state that satisfies the invariant, any sequence of events that the interface accepts is
handled to its end without a stop (R48, R111, R138). -/
def Obligations.AcceptedEventsRunSafely : Prop :=
  ∀ s : State, s.Inv → (∀ e ∈ s.arrivals, Accepted s.params e) →
    (∀ n : Nat, SafeRun n s) ∧
    ∃ t, runFor s.arrivals.length s = .next t ∧ t.arrivals = []

/-- A step stops exactly when its next event is an access that the interface does not accept, and then by
a refusal that says why; there is no fault (R99, R114). -/
def Obligations.StepStopsOnlyOnUnacceptedAccess : Prop :=
  ∀ s : State,
    ((∃ t, step s = .next t) ↔
      ∀ e rest, s.arrivals = e :: rest → Accepted s.params e) ∧
    (∀ f, step s ≠ .fault f) ∧
    (∀ r, step s = .refused r →
      ∃ a rest why, s.arrivals = .access a :: rest ∧ decodeAccess s.params a = .error why ∧
        r = .accessNotAccepted why)

/-! ### SETUP -/

/-- R65, R66, R67: the first failing check, in this order, gives the code and nothing else changes; when
none fails, `SETUP` succeeds, whatever the key buffer and the slot hold. -/
def Obligations.SetupReportsFirstFailingCheck : Prop :=
  ∀ s : State,
    (s.rounds = 0 → exec .setup s = .next { s with err := 1 }) ∧
    (s.rounds ≠ 0 → s.keylen = 0 → exec .setup s = .next { s with err := 2 }) ∧
    (s.rounds ≠ 0 → s.keylen ≠ 0 →
      s.params.rMax < s.rounds.toNat ∨ s.params.bMax < s.keylen.toNat →
      exec .setup s = .next { s with err := 3 }) ∧
    (s.rounds ≠ 0 → s.keylen ≠ 0 →
      s.rounds.toNat ≤ s.params.rMax → s.keylen.toNat ≤ s.params.bMax →
      ∃ t, exec .setup s = .next t ∧ t.err = 0 ∧ t.ctx.isSome = true)

/-- R68 to R73: on operands that pass the checks, `SETUP` commits the context whose table is the last row
of the mixing recurrence, started from the initial table and the packed key, and clears `KEYLEN` and all
of the key buffer. Nothing else changes but `STATUS.ERR`, which takes 0. -/
def Obligations.SetupConstructsTheMixedTable : Prop :=
  ∀ s : State, SetupAccepts s →
    ∃ (S L : Nat → Nat → Word) (a b : Nat → Word),
      MixTrace (2 * (s.rounds.toNat + 1)) ((s.keylen.toNat + 3) / 4) S L a b ∧
      S 0 0 = 0xB7E15163 ∧ (∀ i, S 0 (i + 1) = S 0 i + 0x9E3779B9) ∧
      (∀ m k, k < 4 → byte (L 0 m) k =
        if 4 * m + k < s.keylen.toNat then byte (s.keyw.getD m 0) k else 0) ∧
      exec .setup s = .next
        { s with
          ctx := some
            { R := s.rounds
              S := (List.range (2 * (s.rounds.toNat + 1))).map
                (S (3 * max (2 * (s.rounds.toNat + 1)) ((s.keylen.toNat + 3) / 4))) }
          keyw := List.replicate s.params.cMax 0
          keylen := 0
          err := 0 }

/-- R69: the initial table has `t` words and its word `i` is `P + i * Q` modulo `2^32`. -/
def Obligations.InitialTableIsAnArithmeticProgression : Prop :=
  ∀ t : Nat, (initTable t).length = t ∧
    ∀ i, i < t →
      ((initTable t).getD i 0).toNat = (0xB7E15163 + i * 0x9E3779B9) % 2 ^ 32

/-- R70: the packed key is the key buffer's words, the last one masked to the bytes of the key. -/
def Obligations.PackedKeyMasksTheLastWord : Prop :=
  ∀ (keyw : List Word) (b : Nat), 1 ≤ b →
    (packKey (keyBytes keyw b)).length = (b + 3) / 4 ∧
    (∀ m, m + 1 < (b + 3) / 4 → (packKey (keyBytes keyw b))[m]? = some (keyw.getD m 0)) ∧
    (b % 4 = 0 →
      (packKey (keyBytes keyw b))[(b + 3) / 4 - 1]? = some (keyw.getD ((b + 3) / 4 - 1) 0)) ∧
    (b % 4 ≠ 0 →
      (packKey (keyBytes keyw b))[(b + 3) / 4 - 1]? =
        some (keyw.getD ((b + 3) / 4 - 1) 0 &&& BitVec.ofNat 32 (2 ^ (8 * (b % 4)) - 1)))

/-- R43: every index of `mix` is in range at every iteration, and so is every index into the key buffer of
a `SETUP` that passes its checks, and every table index of a block command under a well-formed context,
the largest being the last of the table. -/
def Obligations.CommandIndicesStayInRange : Prop :=
  (∀ (S L : List Word) (t c n : Nat), 0 < t → 0 < c → S.length = t → L.length = c →
    (mixIter t c n (mixStart S L)).i < (mixIter t c n (mixStart S L)).S.length ∧
    (mixIter t c n (mixStart S L)).j < (mixIter t c n (mixStart S L)).L.length) ∧
  (∀ s : State, s.Inv → SetupAccepts s → ∀ k, k < s.keylen.toNat → k / 4 < s.keyw.length) ∧
  (∀ (p : Params) (c : Context), c.Wf p →
    1 < c.S.length ∧ (∀ r, 1 ≤ r → r ≤ c.R.toNat → 2 * r + 1 < c.S.length) ∧
    2 * c.R.toNat + 1 = c.S.length - 1)

/-- R75: the new context depends on the first `KEYLEN` bytes of the key buffer and on `ROUNDS` alone. -/
def Obligations.SetupDependsOnKeyAndRoundsOnly : Prop :=
  ∀ s u : State, SetupAccepts s → SetupAccepts u → u.rounds = s.rounds → u.keylen = s.keylen →
    (∀ k, k < s.keylen.toNat →
      byte (u.keyw.getD (k / 4) 0) (k % 4) = byte (s.keyw.getD (k / 4) 0) (k % 4)) →
    ∃ (c : Context) (t v : State),
      exec .setup s = .next t ∧ exec .setup u = .next v ∧ t.ctx = some c ∧ v.ctx = some c

/-- R76 (b): zero bytes appended to a key within its last word do not change the table. -/
def Obligations.TrailingZeroBytesKeepTheTable : Prop :=
  ∀ (key : List Byte) (z rounds : Nat),
    (key.length + z + 3) / 4 = (key.length + 3) / 4 →
    expand (key ++ List.replicate z 0) rounds = expand key rounds

/-- The frame of `SETUP`: the block, `ROUNDS`, the parameters and what the host does and has seen never
change; on an error nothing changes but `STATUS.ERR` (R57, R74). -/
def Obligations.SetupFrame : Prop :=
  ∀ s t : State, exec .setup s = .next t →
    t.blka = s.blka ∧ t.blkb = s.blkb ∧ t.rounds = s.rounds ∧ t.params = s.params ∧
    t.arrivals = s.arrivals ∧ t.replies = s.replies ∧
    (t.err ≠ 0 → t = { s with err := t.err }) ∧ (t.err = 0 ↔ SetupAccepts s)

/-- R143: after a successful `SETUP` the key buffer and `KEYLEN` are zero, and a second one without
reloading fails with code 2 and leaves the context in place. -/
def Obligations.SecondSetupWithoutReloadIsKeyEmpty : Prop :=
  ∀ s t : State, exec .setup s = .next t → t.err = 0 →
    t.keyw = List.replicate s.params.cMax 0 ∧ t.keylen = 0 ∧
    t.ctx.isSome = true ∧ exec .setup t = .next { t with err := 2 }

/-! ### ENC and DEC -/

/-- R79, R87: with the slot empty `ENC` and `DEC` raise code 4 and change nothing else. -/
def Obligations.BlockCommandsNeedAContext : Prop :=
  ∀ s : State, s.ctx = none →
    exec .enc s = .next { s with err := 4 } ∧ exec .dec s = .next { s with err := 4 }

/-- R80, R81, R82: `ENC` leaves in `BLKA`, `BLKB` the last row of the encryption recurrence; nothing else
changes but `STATUS.ERR`, which takes 0. -/
def Obligations.EncLeavesTheLastRound : Prop :=
  ∀ (s : State) (c : Context), s.ctx = some c →
    ∃ A B : Nat → Word, EncTrace c s.blka s.blkb A B ∧
      exec .enc s = .next { s with blka := A c.R.toNat, blkb := B c.R.toNat, err := 0 }

/-- R88, R89, R90: `DEC` leaves in `BLKA`, `BLKB` the last row of the decryption recurrence less the first
two table words; nothing else changes but `STATUS.ERR`, which takes 0. -/
def Obligations.DecLeavesTheLastRound : Prop :=
  ∀ (s : State) (c : Context), s.ctx = some c →
    ∃ A B : Nat → Word, DecTrace c s.blka s.blkb A B ∧
      exec .dec s = .next
        { s with blka := A 0 - tableWord c 0, blkb := B 0 - tableWord c 1, err := 0 }

/-- The frame of `ENC` and `DEC`: the context, `ROUNDS`, `KEYLEN`, the key buffer, the parameters and what
the host does and has seen never change; on an error nothing changes but `STATUS.ERR` (R83, R91). -/
def Obligations.BlockCommandsFrame : Prop :=
  ∀ (i : Instr) (s t : State), i = .enc ∨ i = .dec → exec i s = .next t →
    t.ctx = s.ctx ∧ t.rounds = s.rounds ∧ t.keylen = s.keylen ∧ t.keyw = s.keyw ∧
    t.params = s.params ∧ t.arrivals = s.arrivals ∧ t.replies = s.replies ∧
    (t.err ≠ 0 → t = { s with err := t.err }) ∧ (t.err = 0 ↔ s.ctx.isSome = true)

/-- The result of `ENC` and of `DEC` depends on the context and the block alone; in particular not on
`ROUNDS`, nor on the key buffer (R83, R91, R146). -/
def Obligations.BlockCommandsDependOnContextAndBlockOnly : Prop :=
  ∀ (i : Instr) (s u t v : State), i = .enc ∨ i = .dec →
    u.ctx = s.ctx → u.blka = s.blka → u.blkb = s.blkb →
    exec i s = .next t → exec i u = .next v →
    v.blka = t.blka ∧ v.blkb = t.blkb ∧ v.err = t.err

/-- R101: `DEC` after `ENC` restores the block, for every context whatever its table words. -/
def Obligations.DecAfterEncRestoresTheBlock : Prop :=
  ∀ (s : State) (c : Context), s.ctx = some c →
    ∃ t u : State, exec .enc s = .next t ∧ exec .dec t = .next u ∧
      u.blka = s.blka ∧ u.blkb = s.blkb ∧ u.err = 0 ∧ u.ctx = some c

/-- R102: `ENC` after `DEC` restores the block. -/
def Obligations.EncAfterDecRestoresTheBlock : Prop :=
  ∀ (s : State) (c : Context), s.ctx = some c →
    ∃ t u : State, exec .dec s = .next t ∧ exec .enc t = .next u ∧
      u.blka = s.blka ∧ u.blkb = s.blkb ∧ u.err = 0 ∧ u.ctx = some c

/-- R92: each step of `DEC` undoes one step of `ENC`. With `A1`, `B1` the words that round `r` of encryption
makes of `A0`, `B0`, the first update of round `r` of decryption gives `B0` and the second `A0`; the
un-whitening undoes the whitening; any number of rounds in the reverse order, and the whole transform, are
undone. The three facts that the rule names stand first. -/
def Obligations.EachDecStepUndoesAnEncStep : Prop :=
  (∀ (x y k : Word) (n : Nat), sub32 (add32 x k) k = x ∧ rotr32 (rotl32 x n) n = x ∧
    (x ^^^ y) ^^^ y = x) ∧
  (∀ (c : Context) (r : Nat) (A0 B0 A1 B1 : Word),
    A1 = rotl32 (A0 ^^^ B0) B0.toNat + tableWord c (2 * r) →
    B1 = rotl32 (B0 ^^^ A1) A1.toNat + tableWord c (2 * r + 1) →
    encRound c r (A0, B0) = (A1, B1) ∧
    decRoundB c r (A1, B1) = B0 ∧ decRoundA c r A1 B0 = A0 ∧ decRound c r (A1, B1) = (A0, B0)) ∧
  (∀ (c : Context) (ab : Word × Word), unwhiten c (whiten c ab) = ab ∧
    (∀ n, decRounds c n (encRounds c n ab) = ab) ∧ decBlock c (encBlock c ab) = ab)

/-- R110: under every context encryption is a bijection of the blocks and decryption its inverse. -/
def Obligations.EncryptionIsAPermutation : Prop :=
  ∀ c : Context, Function.Bijective (encBlock c) ∧ Function.Bijective (decBlock c) ∧
    ∀ x y : Word × Word, encBlock c x = y ↔ decBlock c y = x

/-! ### Errors -/

/-- R111: every command completes, in every state, with a code that R115 names. -/
def Obligations.EveryCommandCompletes : Prop :=
  ∀ (i : Instr) (s : State), ∃ t, exec i s = .next t ∧
    (t.err = 0 ∨ t.err = 1 ∨ t.err = 2 ∨ t.err = 3 ∨ t.err = 4)

/-- R124: errors are precise. Every write to `CMD` completes, and the state after one that ends in an
error is the state before it with `STATUS.ERR` replaced. -/
def Obligations.FailedCommandChangesOnlyErr : Prop :=
  ∀ (s : State) (cw : Word), s.NextLine (.wr .cmd cw) →
    ∃ t, step s = .next t ∧ t.err.toNat ≤ 5 ∧ (t.err ≠ 0 → t = { s.popped with err := t.err })

/-! ### The host's accesses -/

/-- R94: what a read of each register returns; nothing else changes. -/
def Obligations.ReadsReturnTheRegister : Prop :=
  ∀ (s : State) (r : Reg) (rest : List HostEvent), r.wf s.params = true →
    s.arrivals = .access (.rd32 (s.params.base + r.offset)) :: rest →
    ∃ w : Word, step s = .next { s with arrivals := rest, replies := w :: s.replies } ∧
      (r = .cmd → w = 0x00000000) ∧
      (r = .status → w = (s.err.setWidth 32 <<< 8) ||| (if s.ctx.isSome then 1 else 0)) ∧
      (r = .rounds → w = s.rounds) ∧ (r = .keylen → w = s.keylen) ∧
      (r = .blka → w = s.blka) ∧ (r = .blkb → w = s.blkb) ∧
      (∀ m, r = .keyw m → w = 0x00000000)

/-- R26: in every state the word that a read of `STATUS` returns has `VALID` in bit 0, `ERR` in bits
11:8, and zero in every other bit. -/
def Obligations.StatusWordFields : Prop :=
  ∀ (s : State) (rest : List HostEvent),
    s.arrivals = .access (.rd32 (s.params.base + 0x004)) :: rest →
    ∃ w : Word, step s = .next { s with arrivals := rest, replies := w :: s.replies } ∧
      w.getLsbD 0 = s.ctx.isSome ∧ w.extractLsb' 8 4 = s.err ∧
      w.extractLsb' 1 7 = 0 ∧ w.extractLsb' 12 20 = 0

/-- R95, R97: what a write to each register but `CMD` stores; nothing else changes. -/
def Obligations.WritesStoreInTheRegister : Prop :=
  ∀ (s : State) (v : Word) (rest : List HostEvent),
    (s.arrivals = .access (.wr32 (s.params.base + 0x004) v) :: rest →
      step s = .next { s with arrivals := rest }) ∧
    (s.arrivals = .access (.wr32 (s.params.base + 0x008) v) :: rest →
      step s = .next { s with arrivals := rest, rounds := v }) ∧
    (s.arrivals = .access (.wr32 (s.params.base + 0x00C) v) :: rest →
      step s = .next { s with arrivals := rest, keylen := v }) ∧
    (s.arrivals = .access (.wr32 (s.params.base + 0x010) v) :: rest →
      step s = .next { s with arrivals := rest, blka := v }) ∧
    (s.arrivals = .access (.wr32 (s.params.base + 0x014) v) :: rest →
      step s = .next { s with arrivals := rest, blkb := v }) ∧
    (∀ m, m < s.params.cMax →
      s.arrivals = .access (.wr32 (s.params.base + (0x100 + 4 * m)) v) :: rest →
      ∃ kw, step s = .next { s with arrivals := rest, keyw := kw } ∧
        kw.length = s.keyw.length ∧
        ∀ n, n < s.keyw.length → kw.getD n 0 = if n = m then v else s.keyw.getD n 0)

/-- Writes to two different registers, neither of them `CMD`, have the same effect in either order (R95, R97),
so that the operands of a command may be loaded in any order (R61, R140). -/
def Obligations.OperandWritesCommute : Prop :=
  ∀ (s : State) (q r : Reg) (v w : Word) (rest : List HostEvent),
    q.wf s.params = true → r.wf s.params = true → q ≠ .cmd → r ≠ .cmd → q ≠ r →
    ∃ t, runFor 2 { s with arrivals := eventsOf s.params [.wr q v, .wr r w] ++ rest } = .next t ∧
      runFor 2 { s with arrivals := eventsOf s.params [.wr r w, .wr q v] ++ rest } = .next t ∧
      t.arrivals = rest

/-- R99: an access of another width, at an offset that is no multiple of 4, or at a reserved offset is
refused. The names of the reasons, and that alignment is looked at before the register map, are the model's
choice (log entry 8). -/
def Obligations.UnacceptedAccessesAreRefused : Prop :=
  ∀ (s : State) (rest : List HostEvent) (off : Nat) (v : Word) (a : BusAccess),
    s.arrivals = .access a :: rest →
    ((∃ kind width addr, a = .otherWidth kind width addr) →
      step s = .refused (.accessNotAccepted .otherWidth)) ∧
    (a = .rd32 (s.params.base + off) ∨ a = .wr32 (s.params.base + off) v →
      (off % 4 ≠ 0 → step s = .refused (.accessNotAccepted .misaligned)) ∧
      (off % 4 = 0 → 0x018 ≤ off → off < 0x100 ∨ 0x100 + 4 * s.params.cMax ≤ off →
        step s = .refused (.accessNotAccepted .reservedOffset)))

/-- R40: byte `k` of the register at an offset lies at `BASE + offset + k`, so that the bytes at
`BASE + 0x010 .. BASE + 0x017` are the block's bytes in order, and those from `BASE + 0x100` on are the key
buffer's. -/
def Obligations.BlockAndKeyBytesLieInOrder : Prop :=
  ∀ s : State,
    (∀ r k, r.wf s.params = true → k < 4 →
      heldByteAt (s.params.base + r.offset + k) s = some (byte (heldWord r s) k)) ∧
    (∀ k, k < 4 → heldByteAt (s.params.base + 0x010 + k) s = some (byte s.blka k)) ∧
    (∀ k, k < 4 → heldByteAt (s.params.base + 0x010 + (4 + k)) s = some (byte s.blkb k)) ∧
    (∀ k, k < 4 * s.params.cMax →
      heldByteAt (s.params.base + 0x100 + k) s = some (byte (s.keyw.getD (k / 4) 0) (k % 4)))

/-! ### Reset events -/

/-- A reset event gives the reset state of R33, whatever the state before it (R136). -/
def Obligations.ResetEventGivesTheResetState : Prop :=
  ∀ (s : State) (rest : List HostEvent), s.arrivals = .reset :: rest →
    step s = .next
      { State.resetWith s.params with arrivals := rest, replies := s.replies }

/-- R137: nothing of the context, the key buffer or any other register from before a reset has any effect
on what follows it: the key buffer is zero, and a block command straight after it raises code 4. -/
def Obligations.ResetDestroysContextAndKey : Prop :=
  ∀ (s u : State) (rest : List HostEvent), s.arrivals = .reset :: rest →
    u.arrivals = s.arrivals → u.params = s.params → u.replies = s.replies →
    (∀ n, runFor (n + 1) u = runFor (n + 1) s) ∧
    ∃ t, step s = .next t ∧ t.ctx = none ∧ t.keyw = List.replicate s.params.cMax 0 ∧
      ∀ i, i = .enc ∨ i = .dec → exec i t = .next { t with err := 4 }

/-- R128: a reset wins over the command before it: with the reset next in order, the state after both is
the state after the reset alone, whatever the command. That a reset is an event in the same order as the
accesses is the model's choice (log entry 5). -/
def Obligations.ResetWinsOverTheCommandBeforeIt : Prop :=
  ∀ (s : State) (a : BusAccess) (cw : Word) (rest : List HostEvent),
    s.arrivals = .access a :: .reset :: rest → decodeAccess s.params a = .ok (.wr .cmd cw) →
    runFor 2 s = step { s with arrivals := .reset :: rest }

/-! ### Rules of the whole machine -/

/-- R19: the slot changes only by a successful `SETUP`, which fills it, or by a reset, which empties it. -/
def Obligations.ContextChangesOnlyBySetupOrReset : Prop :=
  ∀ s t : State, step s = .next t → t.ctx ≠ s.ctx →
    (s.NextCommand .setup ∧ t.err = 0 ∧ t.ctx.isSome = true) ∨ (s.NextReset ∧ t.ctx = none)

/-- While no `SETUP` is started and no reset arrives, the context stays the same through any run, whatever
blocks are transformed (R19, R109). -/
def Obligations.ContextIsSharedByAllBlocks : Prop :=
  ∀ (n : Nat) (s t : State),
    (∀ e ∈ s.arrivals, e ≠ .reset ∧ ¬ Starts s.params .setup e) →
    runFor n s = .next t → t.ctx = s.ctx

/-- Who writes each register: `STATUS.ERR` by commands, `BLKA` and `BLKB` by the host, `ENC` and `DEC`,
`ROUNDS` by the host, `KEYLEN` and `KEYW` by the host and a successful `SETUP`, each by reset, and by
nothing else; the parameters by nothing (R8, R21 to R26, R33). -/
def Obligations.RegistersAreWrittenOnlyByTheirWriters : Prop :=
  ∀ s t : State, step s = .next t →
    t.params = s.params ∧
    (t.err ≠ s.err → s.NextReset ∨ ∃ cw, s.NextLine (.wr .cmd cw)) ∧
    (t.blka ≠ s.blka →
      s.NextReset ∨ s.NextLine (.wr .blka t.blka) ∨
      ((s.NextCommand .enc ∨ s.NextCommand .dec) ∧ t.err = 0)) ∧
    (t.blkb ≠ s.blkb →
      s.NextReset ∨ s.NextLine (.wr .blkb t.blkb) ∨
      ((s.NextCommand .enc ∨ s.NextCommand .dec) ∧ t.err = 0)) ∧
    (t.rounds ≠ s.rounds → s.NextReset ∨ s.NextLine (.wr .rounds t.rounds)) ∧
    (t.keylen ≠ s.keylen →
      s.NextReset ∨ s.NextLine (.wr .keylen t.keylen) ∨ (s.NextCommand .setup ∧ t.err = 0)) ∧
    (t.keyw ≠ s.keyw →
      s.NextReset ∨ (∃ m v, s.NextLine (.wr (.keyw m) v)) ∨
      (s.NextCommand .setup ∧ t.err = 0))

/-- A step that starts no block command keeps two states that differ only in the key buffer and in the
content of a valid context different in nothing else: the invariant of two runs on which the next statement
rests (R20, R24, R98). The lists of events and of words read are the model's own (log entries 3, 4). -/
def Obligations.StepKeepsTheSecretsUnseen : Prop :=
  ∀ s u t : State, SameButSecrets s u →
    (∀ e rest, s.arrivals = e :: rest → ¬ Starts s.params .enc e ∧ ¬ Starts s.params .dec e) →
    step s = .next t → ∃ v, step u = .next v ∧ SameButSecrets t v

/-- What the host sees of the key and of the context: while no block command is started, two states that
differ only in the key buffer and in the content of a valid context give the host the same words,
whatever else it does, `SETUP` and reset included (R20, R24, R98, R130). The list of words the host has
seen is the model's own (log entry 4). -/
def Obligations.KeyAndTableCannotBeReadOut : Prop :=
  ∀ (n : Nat) (s u : State), SameButSecrets s u →
    (∀ e ∈ s.arrivals, ¬ Starts s.params .enc e ∧ ¬ Starts s.params .dec e) →
    observed (runFor n u) = observed (runFor n s)

/-! ### The pseudo-instructions -/

/-- `construct(key, rounds)` builds the context of the key and the round count, from every state that
satisfies the invariant, and the status read at its end returns 1 (R61). The list of words read is the
model's own (log entry 4). -/
def Obligations.ConstructBuildsTheContext : Prop :=
  ∀ (s : State) (key : List Byte) (rounds : Word) (rest : List HostEvent), s.Inv →
    key ≠ [] → key.length ≤ s.params.bMax → rounds ≠ 0 → rounds.toNat ≤ s.params.rMax →
    s.arrivals = eventsOf s.params (constructLines key rounds) ++ rest →
    runFor (constructLines key rounds).length s = .next
      { s with
        ctx := some { R := rounds, S := expand key rounds.toNat }
        keyw := List.replicate s.params.cMax 0
        keylen := 0
        rounds := rounds
        err := 0
        arrivals := rest
        replies := 0x00000001 :: s.replies }

/-- `encryptBlock(x)` followed by `decryptBlock` of the bytes it returned gives the bytes of `x` back:
the last two words that the host has read are the buffer `x` (R62, R101). The list of words read is the
model's own (log entry 4). -/
def Obligations.DecryptBlockReturnsTheEncryptedBuffer : Prop :=
  ∀ (s : State) (c : Context) (x y : Vector Byte 8) (rest : List HostEvent), s.ctx = some c →
    y = bufferOf (encBlock c (bufferA x, bufferB x)).1 (encBlock c (bufferA x, bufferB x)).2 →
    s.arrivals = eventsOf s.params (encryptBlockLines x ++ decryptBlockLines y) ++ rest →
    ∃ (t : State) (a b : Word) (old : List Word),
      runFor 12 s = .next t ∧ t.arrivals = rest ∧ t.ctx = some c ∧
      t.replies = b :: a :: 0x00000001 :: bufferB y :: bufferA y :: 0x00000001 :: old ∧
      old = s.replies ∧ bufferOf a b = x

/-- The form of `encryptBlock` and `decryptBlock` for a block already in `BLKA`, `BLKB` (R62): with a context
the block in the registers is transformed in place and read back after the status 1; with the slot empty the
status read is that of code 4 and the block comes back as it was. The list of words read is the model's own
(log entry 4). -/
def Obligations.HeldBlockIsTransformedInPlace : Prop :=
  ∀ (s : State) (rest : List HostEvent),
    (∀ c, s.ctx = some c → s.arrivals = eventsOf s.params encryptHeldBlockLines ++ rest →
      runFor 4 s = .next
        { s with
          blka := (encBlock c (s.blka, s.blkb)).1
          blkb := (encBlock c (s.blka, s.blkb)).2
          err := 0
          arrivals := rest
          replies := (encBlock c (s.blka, s.blkb)).2 :: (encBlock c (s.blka, s.blkb)).1 ::
            0x00000001 :: s.replies }) ∧
    (∀ c, s.ctx = some c → s.arrivals = eventsOf s.params decryptHeldBlockLines ++ rest →
      runFor 4 s = .next
        { s with
          blka := (decBlock c (s.blka, s.blkb)).1
          blkb := (decBlock c (s.blka, s.blkb)).2
          err := 0
          arrivals := rest
          replies := (decBlock c (s.blka, s.blkb)).2 :: (decBlock c (s.blka, s.blkb)).1 ::
            0x00000001 :: s.replies }) ∧
    (∀ i, i = .enc ∨ i = .dec → s.ctx = none →
      s.arrivals = eventsOf s.params (heldBlockLines i) ++ rest →
      runFor 4 s = .next
        { s with err := 4, arrivals := rest, replies := s.blkb :: s.blka :: 0x00000400 :: s.replies })

/-! ### Arithmetic -/

/-- R11: addition and subtraction wrap modulo `2^32`, and the grouping of a sum does not matter. -/
def Obligations.AdditionAndSubtractionWrap : Prop :=
  ∀ x y z : Word, (add32 x y).toNat = (x.toNat + y.toNat) % 2 ^ 32 ∧
    ((sub32 x y).toNat : Int) = ((x.toNat : Int) - (y.toNat : Int)) % 2 ^ 32 ∧
    sub32 0x00000000 0x00000001 = 0xFFFFFFFF ∧
    add32 (add32 x y) z = add32 x (add32 y z) ∧ add32 x y = add32 y x

/-- R13: rotations as R13 writes them on unbounded naturals, and its consequences. -/
def Obligations.RotationLaws : Prop :=
  ∀ (x : Word) (n : Nat),
    (n % 32 = 0 → rotl32 x n = x ∧ rotr32 x n = x) ∧
    (n % 32 ≠ 0 →
      (rotl32 x n).toNat =
        (x.toNat * 2 ^ (n % 32)) % 2 ^ 32 ||| x.toNat / 2 ^ (32 - n % 32) ∧
      (rotr32 x n).toNat =
        x.toNat / 2 ^ (n % 32) ||| (x.toNat * 2 ^ (32 - n % 32)) % 2 ^ 32) ∧
    rotr32 (rotl32 x n) n = x ∧ rotl32 (rotr32 x n) n = x ∧
    rotl32 x n = rotl32 x (n % 32) ∧ rotr32 x n = rotr32 x (n % 32) ∧
    rotl32 x n = rotr32 x (32 - n % 32)

/-- R14: `le32` puts its first byte least significant, and `byte` takes a word apart again. -/
def Obligations.WordsAreLittleEndian : Prop :=
  (∀ b0 b1 b2 b3 : Byte,
    (le32 b0 b1 b2 b3).toNat =
      b0.toNat + 2 ^ 8 * b1.toNat + 2 ^ 16 * b2.toNat + 2 ^ 24 * b3.toNat) ∧
  (∀ (w : Word) (k : Nat), k < 4 → (byte w k).toNat = w.toNat / 2 ^ (8 * k) % 2 ^ 8) ∧
  (∀ w : Word, le32 (byte w 0) (byte w 1) (byte w 2) (byte w 3) = w)
end

