-- ==== Sys2Proof/Laws/Arith.lean ====
section
/-! SUPPORT. The laws of wrapping arithmetic, of rotation and of byte order (44_properties.md R112). -/

namespace Sys2Proof.Machine

@[simp] theorem sub32_add32 (x k : Word) : sub32 (add32 x k) k = x := by
  simp [sub32, add32]

@[simp] theorem add32_sub32 (x k : Word) : add32 (sub32 x k) k = x := by
  simp [sub32, add32]

@[simp] theorem xor_xor_right (x y : Word) : x ^^^ y ^^^ y = x := by
  simp

/-- Bit `i` of a left rotation by less than 32. -/
theorem getLsbD_rotl32 (x : Word) (n i : Nat) (hi : i < 32) :
    (rotl32 x n).getLsbD i =
      if i < n % 32 then x.getLsbD (32 - n % 32 + i) else x.getLsbD (i - n % 32) := by
  have hn : n % 32 < 32 := Nat.mod_lt _ (by decide)
  unfold rotl32
  split
  · next h => simp [h]
  · next h =>
    by_cases hlt : i < n % 32
    · simp [hlt, hi, Nat.add_comm]
    · have : 32 ≤ 32 - n % 32 + i := by omega
      simp [hlt, hi, BitVec.getLsbD_of_ge x _ this]
      rw [BitVec.getLsbD_eq_getElem]

/-- Bit `i` of a right rotation by less than 32. -/
theorem getLsbD_rotr32 (x : Word) (n i : Nat) (hi : i < 32) :
    (rotr32 x n).getLsbD i =
      if i < 32 - n % 32 then x.getLsbD (n % 32 + i) else x.getLsbD (i - (32 - n % 32)) := by
  have hn : n % 32 < 32 := Nat.mod_lt _ (by decide)
  unfold rotr32
  split
  · next h => simp [h, hi]
  · next h =>
    by_cases hlt : i < 32 - n % 32
    · simp [hlt, Nat.add_comm]
    · have : 32 ≤ n % 32 + i := by omega
      simp [hlt, hi, BitVec.getLsbD_of_ge x _ this]
      rw [BitVec.getLsbD_eq_getElem]

@[simp] theorem rotr32_rotl32 (x : Word) (n : Nat) : rotr32 (rotl32 x n) n = x := by
  apply BitVec.eq_of_getLsbD_eq
  intro i hi
  have hn : n % 32 < 32 := Nat.mod_lt _ (by decide)
  rw [getLsbD_rotr32 _ _ _ hi]
  split
  · next h =>
    rw [getLsbD_rotl32 _ _ _ (by omega), if_neg (by omega)]
    congr 1; omega
  · next h =>
    rw [getLsbD_rotl32 _ _ _ (by omega), if_pos (by omega)]
    congr 1; omega

@[simp] theorem rotl32_rotr32 (x : Word) (n : Nat) : rotl32 (rotr32 x n) n = x := by
  apply BitVec.eq_of_getLsbD_eq
  intro i hi
  have hn : n % 32 < 32 := Nat.mod_lt _ (by decide)
  rw [getLsbD_rotl32 _ _ _ hi]
  split
  · next h =>
    rw [getLsbD_rotr32 _ _ _ (by omega), if_neg (by omega)]
    congr 1; omega
  · next h =>
    rw [getLsbD_rotr32 _ _ _ (by omega), if_pos (by omega)]
    congr 1; omega

/-- Bit `i` of byte `k`. -/
theorem getLsbD_byte (w : Word) (k i : Nat) :
    (byte w k).getLsbD i = (decide (i < 8) && w.getLsbD (8 * k + i)) := by
  simp [byte]

/-- Byte `k` of a word built by `le32` is the byte at place `k`. -/
theorem byte_le32 (b0 b1 b2 b3 : Byte) :
    byte (le32 b0 b1 b2 b3) 0 = b0 ∧ byte (le32 b0 b1 b2 b3) 1 = b1 ∧
    byte (le32 b0 b1 b2 b3) 2 = b2 ∧ byte (le32 b0 b1 b2 b3) 3 = b3 := by
  refine ⟨?_, ?_, ?_, ?_⟩ <;>
  · apply BitVec.eq_of_getLsbD_eq
    intro i hi
    simp only [getLsbD_byte, le32, BitVec.getLsbD_append]
    have h1 : ¬ 8 * 1 + i < 8 := by omega
    have h1' : 8 * 1 + i - 8 = i := by omega
    have h2 : ¬ 8 * 2 + i < 8 := by omega
    have h2' : 8 * 2 + i - 8 - 8 = i := by omega
    have h2'' : ¬ 8 * 2 + i - 8 < 8 := by omega
    have h3 : ¬ 8 * 3 + i < 8 := by omega
    have h3' : ¬ 8 * 3 + i - 8 < 8 := by omega
    have h3'' : ¬ 8 * 3 + i - 8 - 8 < 8 := by omega
    have h3''' : 8 * 3 + i - 8 - 8 - 8 = i := by omega
    simp only [hi, h1, h1', h2, h2', h2'', h3, h3', h3'', h3''', decide_true, Bool.true_and,
      if_true, if_false, Nat.mul_zero, Nat.zero_add]

/-- `le32` puts the four bytes of a word back together. -/
theorem le32_byte (w : Word) : le32 (byte w 0) (byte w 1) (byte w 2) (byte w 3) = w := by
  apply BitVec.eq_of_getLsbD_eq
  intro i hi
  simp only [le32, BitVec.getLsbD_append, getLsbD_byte]
  split
  · next h => simp [h]
  · next h =>
    split
    · next h' => simp only [h', decide_true, Bool.true_and]; congr 1; omega
    · next h' =>
      split
      · next h'' => simp only [h'', decide_true, Bool.true_and]; congr 1; omega
      · next h'' =>
        have : i - 8 - 8 - 8 < 8 := by omega
        simp only [this, decide_true, Bool.true_and]; congr 1; omega

/-- Two words with the same four bytes are equal. -/
theorem word_ext_byte {v w : Word} (h : ∀ k, k < 4 → byte v k = byte w k) : v = w := by
  rw [← le32_byte v, ← le32_byte w, h 0 (by decide), h 1 (by decide), h 2 (by decide), h 3 (by decide)]

end Sys2Proof.Machine
end

