-- ==== Sys2Proof/Laws/Block.lean ====
section
/-! SUPPORT. One round of each block transform undoes one of the other (42_decrypt.md R92), and what `ENC` and
`DEC` can do. -/

namespace Sys2Proof.Machine

@[simp] theorem decRound_encRound (c : Context) (r : Nat) (ab : Word × Word) :
    decRound c r (encRound c r ab) = ab := by
  simp [decRound, encRound, decRoundA, decRoundB, encRoundA, encRoundB]

@[simp] theorem encRound_decRound (c : Context) (r : Nat) (ab : Word × Word) :
    encRound c r (decRound c r ab) = ab := by
  simp [decRound, encRound, decRoundA, decRoundB, encRoundA, encRoundB]

@[simp] theorem unwhiten_whiten (c : Context) (ab : Word × Word) :
    unwhiten c (whiten c ab) = ab := by
  simp [whiten, unwhiten]

@[simp] theorem whiten_unwhiten (c : Context) (ab : Word × Word) :
    whiten c (unwhiten c ab) = ab := by
  simp [whiten, unwhiten]

/-- `ENC` completes: it raises `NoContext` and changes nothing else, or writes the block back. -/
theorem execEnc_cases (s t : State) (h : execEnc s = .next t) :
    (s.ctx = none ∧ t = raiseError .noContext s) ∨
    (∃ c, s.ctx = some c ∧ t = succeed (writeBlock (encBlock c (block s)) s)) := by
  unfold execEnc at h
  split at h
  · next hc => cases h; exact .inl ⟨hc, rfl⟩
  · next c hc => cases h; exact .inr ⟨c, hc, rfl⟩

/-- `DEC` completes: it raises `NoContext` and changes nothing else, or writes the block back. -/
theorem execDec_cases (s t : State) (h : execDec s = .next t) :
    (s.ctx = none ∧ t = raiseError .noContext s) ∨
    (∃ c, s.ctx = some c ∧ t = succeed (writeBlock (decBlock c (block s)) s)) := by
  unfold execDec at h
  split at h
  · next hc => cases h; exact .inl ⟨hc, rfl⟩
  · next c hc => cases h; exact .inr ⟨c, hc, rfl⟩

end Sys2Proof.Machine
end

