-- ==== Sys2Proof/Laws/Decode.lean ====
section
/-! SUPPORT. What the decoder of command words and the register map answer. -/

namespace Sys2Proof

/-- The two fields of a command word determine it. -/
theorem word_eq_fields (cw : Word) : cw = rsvField cw ++ opcField cw := by
  apply BitVec.eq_of_getLsbD_eq
  intro i hi
  simp only [rsvField, opcField, BitVec.getLsbD_append, BitVec.getLsbD_extractLsb']
  split
  · next h => simp [h]
  · next h =>
    have : i - 8 < 24 := by omega
    simp only [this, decide_true, Bool.true_and]
    congr 1; omega

/-- The decoder accepts exactly the words that the encoder gives (R54, R59). -/
theorem decode_eq_ok_iff (cw : Word) (i : Instr) : decode cw = .ok i ↔ cw = encode i := by
  constructor
  · intro h
    have hw := word_eq_fields cw
    unfold decode at h
    split at h
    · cases h
    · next hr =>
      rw [not_not.mp hr] at hw
      split at h
      · next ho => cases h; rw [hw, ho]; rfl
      · split at h
        · next ho => cases h; rw [hw, ho]; rfl
        · split at h
          · next ho => cases h; rw [hw, ho]; rfl
          · cases h
  · rintro rfl
    cases i <;> decide

/-- The decoder rejects every other word. -/
theorem decode_eq_error (cw : Word) (h : ∀ i, cw ≠ encode i) : ∃ e, decode cw = .error e := by
  cases hd : decode cw with
  | error e => exact ⟨e, rfl⟩
  | ok i => exact absurd ((decode_eq_ok_iff cw i).mp hd) (h i)

/-- The register map is read back from its own offsets (R37). -/
theorem decodeOffset_offset (p : Params) (r : Reg) (h : r.wf p = true) :
    decodeOffset p r.offset = .ok r := by
  cases r with
  | keyw m =>
    have hm : m < p.cMax := by simpa [Reg.wf] using h
    have h4 : (256 + 4 * m) % 4 = 0 := by omega
    have hd : (256 + 4 * m - 256) / 4 = m := by omega
    simp only [decodeOffset, Reg.offset, h4, hd, ne_eq, not_true_eq_false, if_false]
    rw [if_neg (by omega), if_neg (by omega), if_neg (by omega), if_neg (by omega),
      if_neg (by omega), if_neg (by omega), if_pos (by omega)]
  | _ => rfl

/-- An offset that the register map knows is the offset of the register it names (R37). -/
theorem offset_of_decodeOffset (p : Params) (off : Nat) (r : Reg) (h : decodeOffset p off = .ok r) :
    r.wf p = true ∧ off = r.offset := by
  unfold decodeOffset at h
  split at h
  · cases h
  · next h4 =>
    repeat' split at h
    all_goals first
      | (cases h; exact ⟨rfl, by assumption⟩)
      | skip
    · next hk =>
      cases h
      exact ⟨by simp only [Reg.wf, decide_eq_true_eq]; omega, by simp only [Reg.offset]; omega⟩
    · cases h

/-- A register's bus address decodes to the register (R94). -/
theorem decodeAddress_offset (p : Params) (r : Reg) (h : r.wf p = true) :
    decodeAddress p (p.base + r.offset) = .ok r := by
  simp [decodeAddress, decodeOffset_offset p r h]

/-- A bus address that decodes to a register is that register's (R94). -/
theorem address_of_decodeAddress (p : Params) (addr : Nat) (r : Reg)
    (h : decodeAddress p addr = .ok r) : r.wf p = true ∧ addr = p.base + r.offset := by
  unfold decodeAddress at h
  split at h
  · cases h
  · obtain ⟨hw, ho⟩ := offset_of_decodeOffset p _ r h
    exact ⟨hw, by omega⟩

@[simp] theorem decodeAccess_rd32 (p : Params) (r : Reg) (h : r.wf p = true) :
    decodeAccess p (.rd32 (p.base + r.offset)) = .ok (.rd r) := by
  simp [decodeAccess, decodeAddress_offset p r h]

@[simp] theorem decodeAccess_wr32 (p : Params) (r : Reg) (v : Word) (h : r.wf p = true) :
    decodeAccess p (.wr32 (p.base + r.offset) v) = .ok (.wr r v) := by
  simp [decodeAccess, decodeAddress_offset p r h]

/-- `CMD` lies at `BASE` itself. -/
@[simp] theorem decodeAccess_cmd (p : Params) (cw : Word) :
    decodeAccess p (.wr32 p.base cw) = .ok (.wr .cmd cw) :=
  decodeAccess_wr32 p .cmd cw rfl

end Sys2Proof
end

