-- ==== Sys2Proof/Laws/HostProgram.lean ====
section
/-! SUPPORT. The events of a host program, and the 8-byte buffers of the pseudo-instructions with the two words they
are carried in (30_encoding.md R60, R62). -/

namespace Sys2Proof.Machine

@[simp] theorem eventsOf_nil (p : Params) : eventsOf p [] = [] := rfl

@[simp] theorem eventsOf_cons (p : Params) (l : HostLine) (ls : List HostLine) :
    eventsOf p (l :: ls) = .access (encodeLine p l) :: eventsOf p ls := rfl

@[simp] theorem eventsOf_append (p : Params) (ls ms : List HostLine) :
    eventsOf p (ls ++ ms) = eventsOf p ls ++ eventsOf p ms := by simp [eventsOf]

@[simp] theorem bufferA_bufferOf (a b : Word) : bufferA (bufferOf a b) = a := by
  rw [bufferA, bufferOf]
  exact le32_byte a

@[simp] theorem bufferB_bufferOf (a b : Word) : bufferB (bufferOf a b) = b := by
  rw [bufferB, bufferOf]
  exact le32_byte b

/-- A buffer is read back from its two words. -/
@[simp] theorem bufferOf_buffer (x : Vector Byte 8) : bufferOf (bufferA x) (bufferB x) = x := by
  have ha : ∀ k, k < 4 → ∀ h : k < 8, byte (bufferA x) k = x[k] := by
    intro k hk h
    obtain ⟨h0, h1, h2, h3⟩ := byte_le32 x[0] x[1] x[2] x[3]
    have hk' : k = 0 ∨ k = 1 ∨ k = 2 ∨ k = 3 := by omega
    obtain rfl | rfl | rfl | rfl := hk'
    exacts [h0, h1, h2, h3]
  have hb : ∀ k, k < 4 → ∀ h : 4 + k < 8, byte (bufferB x) k = x[4 + k] := by
    intro k hk h
    obtain ⟨h0, h1, h2, h3⟩ := byte_le32 x[4] x[5] x[6] x[7]
    have hk' : k = 0 ∨ k = 1 ∨ k = 2 ∨ k = 3 := by omega
    obtain rfl | rfl | rfl | rfl := hk'
    exacts [h0, h1, h2, h3]
  generalize bufferA x = a at ha
  generalize bufferB x = b at hb
  apply Vector.ext
  intro i hi
  have h8 : i = 0 ∨ i = 1 ∨ i = 2 ∨ i = 3 ∨ i = 4 ∨ i = 5 ∨ i = 6 ∨ i = 7 := by omega
  obtain rfl | rfl | rfl | rfl | rfl | rfl | rfl | rfl := h8
  · exact ha 0 (by decide) hi
  · exact ha 1 (by decide) hi
  · exact ha 2 (by decide) hi
  · exact ha 3 (by decide) hi
  · exact hb 0 (by decide) hi
  · exact hb 1 (by decide) hi
  · exact hb 2 (by decide) hi
  · exact hb 3 (by decide) hi

end Sys2Proof.Machine
end

