-- ==== Sys2Proof/Laws/KeySchedule.lean ====
section
/-! SUPPORT. One lemma for each part of the key scheduler: the initial table, the packed key, the iterations of
`mix`, and what `SETUP` can do. -/

namespace Sys2Proof.Machine

/-! ### The initial table (R69) -/

@[simp] theorem initFrom_length (n : Nat) (w : Word) : (initFrom n w).length = n := by
  induction n generalizing w with
  | zero => rfl
  | succ n ih => simp [initFrom, ih]

theorem initFrom_getElem? (n : Nat) (w : Word) (i : Nat) (h : i < n) :
    (initFrom n w)[i]? = some (w + BitVec.ofNat 32 i * magicQ) := by
  induction n generalizing w i with
  | zero => omega
  | succ n ih =>
    cases i with
    | zero => simp [initFrom]
    | succ i =>
      rw [initFrom, List.getElem?_cons_succ, ih _ _ (by omega), add32]
      have hs : BitVec.ofNat 32 (i + 1) = 1#32 + BitVec.ofNat 32 i := by
        rw [Nat.add_comm, BitVec.ofNat_add]
      rw [hs, BitVec.add_mul, BitVec.one_mul, BitVec.add_assoc]

@[simp] theorem initTable_length (t : Nat) : (initTable t).length = t := initFrom_length t _

/-! ### The packed key (R70) -/

/-- OR-ing a byte into lane `r` of a word changes that lane only. -/
theorem byte_or_shift (w : Word) (x : Byte) (r q : Nat) (hr : r < 4) (hq : q < 4) :
    byte (w ||| (x.setWidth 32 <<< (8 * r))) q = if q = r then byte w r ||| x else byte w q := by
  apply BitVec.eq_of_getLsbD_eq
  intro i hi
  have h32 : 8 * q + i < 32 := by omega
  have hor : (byte (w ||| (x.setWidth 32 <<< (8 * r))) q).getLsbD i =
      (w.getLsbD (8 * q + i) ||
        (!decide (8 * q + i < 8 * r) && x.getLsbD (8 * q + i - 8 * r))) := by
    have h32' : 8 * q + i - 8 * r < 32 := by omega
    simp only [getLsbD_byte, hi, h32, h32', BitVec.getLsbD_or, BitVec.getLsbD_shiftLeft,
      BitVec.getLsbD_setWidth, decide_true, Bool.true_and]
  rw [hor]
  split
  · next h =>
    subst h
    have h0 : 8 * q + i - 8 * q = i := by omega
    have h1 : ¬ 8 * q + i < 8 * q := by omega
    simp only [BitVec.getLsbD_or, getLsbD_byte, hi, h0, h1, decide_true, decide_false, Bool.not_false,
      Bool.true_and]
  · next h =>
    have hx : (!decide (8 * q + i < 8 * r) && x.getLsbD (8 * q + i - 8 * r)) = false := by
      by_cases hlt : 8 * q + i < 8 * r
      · simp [hlt]
      · rw [BitVec.getLsbD_of_ge x _ (by omega), Bool.and_false]
    rw [hx, Bool.or_false, getLsbD_byte]
    simp only [hi, decide_true, Bool.true_and]

@[simp] theorem packInto_length (xs : List Byte) (k : Nat) (L : List Word) :
    (packInto xs k L).length = L.length := by
  induction xs generalizing k L with
  | nil => rfl
  | cons x xs ih => simp [packInto, ih]

@[simp] theorem packKey_length (key : List Byte) :
    (packKey key).length = keyWordCount key.length := by
  simp [packKey]

/-- Every byte of the packed words, when the bytes from `k` on are zero at the start. -/
theorem byte_packInto (xs : List Byte) (k : Nat) (L : List Word)
    (hlen : k + xs.length ≤ 4 * L.length)
    (hz : ∀ m r, r < 4 → k ≤ 4 * m + r → byte (L.getD m 0) r = 0) (m r : Nat) (hr : r < 4) :
    byte ((packInto xs k L).getD m 0) r =
      if 4 * m + r < k then byte (L.getD m 0) r else xs.getD (4 * m + r - k) 0 := by
  induction xs generalizing k L with
  | nil =>
    split
    · rfl
    · next h => simpa [packInto] using hz m r hr (by omega)
  | cons x xs ih =>
    have hlen' : k + 1 + xs.length ≤ 4 * L.length := by
      simp only [List.length_cons] at hlen; omega
    have hin : k / 4 < L.length := by simp only [List.length_cons] at hlen; omega
    have hstep : ∀ m r, r < 4 →
        byte ((L.set (k / 4) (L.getD (k / 4) 0 ||| (x.setWidth 32 <<< (8 * (k % 4))))).getD m 0) r =
          if 4 * m + r = k then x else byte (L.getD m 0) r := by
      intro m r hr
      by_cases hm : k / 4 = m
      · subst hm
        rw [List.getD_eq_getElem?_getD, List.getElem?_set_self hin, Option.getD_some,
          byte_or_shift _ _ _ _ (Nat.mod_lt _ (by decide)) hr]
        by_cases hrk : r = k % 4
        · rw [if_pos hrk, if_pos (by omega), hz _ _ (Nat.mod_lt _ (by decide)) (by omega)]
          simp
        · rw [if_neg hrk, if_neg (by omega)]
      · rw [List.getD_eq_getElem?_getD, List.getElem?_set_ne hm, if_neg (by omega),
          List.getD_eq_getElem?_getD]
    rw [packInto, ih (k + 1) _ (by simpa using hlen')
      (by intro m r hr hk; rw [hstep m r hr, if_neg (by omega)]; exact hz m r hr (by omega))]
    rw [hstep m r hr]
    by_cases h1 : 4 * m + r < k
    · rw [if_pos (by omega), if_neg (by omega), if_pos h1]
    · by_cases h2 : 4 * m + r = k
      · rw [if_pos (by omega), if_pos h2, if_neg h1]
        simp [h2]
      · rw [if_neg (by omega), if_neg h1]
        have : 4 * m + r - k = 4 * m + r - (k + 1) + 1 := by omega
        rw [this, List.getD_cons_succ]

/-- Byte `r` of packed word `m` is byte `4m + r` of the key, and zero beyond the key (R70). -/
theorem byte_packKey (key : List Byte) (m r : Nat) (hr : r < 4) :
    byte ((packKey key).getD m 0) r = key.getD (4 * m + r) 0 := by
  rw [packKey, byte_packInto _ _ _ (by simp [keyWordCount]; omega) _ _ _ hr, if_neg (by omega),
    Nat.sub_zero]
  intro m r _ _
  have : (List.replicate (keyWordCount key.length) (0 : Word)).getD m 0 = 0 := by
    rw [List.getD_eq_getElem?_getD, List.getElem?_replicate]
    split <;> rfl
  rw [this]
  apply BitVec.eq_of_getLsbD_eq
  intro i _
  simp [getLsbD_byte]

@[simp] theorem keyBytes_length (keyw : List Word) (b : Nat) : (keyBytes keyw b).length = b := by
  simp [keyBytes]

theorem keyBytes_getD (keyw : List Word) (b k : Nat) :
    (keyBytes keyw b).getD k 0 = if k < b then keyByte keyw k else 0 := by
  rw [keyBytes, List.getD_eq_getElem?_getD, List.getElem?_map]
  split
  · next h => simp [List.getElem?_range h]
  · next h => simp [Nat.le_of_not_lt h]

/-! ### The iterations of `mix` (R71) -/

@[simp] theorem mixIter_zero (t c : Nat) (m : MixState) : mixIter t c 0 m = m := rfl

/-- One more iteration is one step after the iterations before it. -/
theorem mixIter_succ (t c n : Nat) (m : MixState) :
    mixIter t c (n + 1) m = mixStep t c (mixIter t c n m) := by
  induction n generalizing m with
  | zero => rfl
  | succ n ih => rw [mixIter, ih]; rfl

@[simp] theorem mixIter_S_length (t c n : Nat) (m : MixState) :
    (mixIter t c n m).S.length = m.S.length := by
  induction n with
  | zero => rfl
  | succ n ih => rw [mixIter_succ, mixStep, List.length_set, ih]

@[simp] theorem mixIter_L_length (t c n : Nat) (m : MixState) :
    (mixIter t c n m).L.length = m.L.length := by
  induction n with
  | zero => rfl
  | succ n ih => rw [mixIter_succ, mixStep, List.length_set, ih]

/-- The indices after `n` iterations from the start are `n mod t` and `n mod c`. -/
theorem mixIter_start_indices (t c n : Nat) (S L : List Word) :
    (mixIter t c n (mixStart S L)).i = n % t ∧ (mixIter t c n (mixStart S L)).j = n % c := by
  induction n with
  | zero => simp [mixStart]
  | succ n ih => rw [mixIter_succ]; simp [mixStep, ih]

@[simp] theorem expand_length (key : List Byte) (rounds : Nat) :
    (expand key rounds).length = tableSize rounds := by
  simp [expand, mix, mixStart]

/-! ### What `SETUP` can do (R64) -/

/-- The three errors of `SETUP`. -/
theorem setupError_cases (s : State) (e : ErrorCode) (h : setupError s = some e) :
    e = .roundsZero ∨ e = .keyEmpty ∨ e = .capacityExceeded := by
  unfold setupError at h
  repeat' split at h
  all_goals simp_all

/-- The checks pass on exactly these operands (R65, R66, R67). -/
theorem setupError_eq_none_iff (s : State) :
    setupError s = none ↔ s.rounds ≠ 0 ∧ s.keylen ≠ 0 ∧
      s.rounds.toNat ≤ s.params.rMax ∧ s.keylen.toNat ≤ s.params.bMax := by
  unfold setupError
  split
  · next h => simp only [reduceCtorEq, false_iff]; exact fun hn => hn.1 h
  · next h =>
    split
    · next h' => simp only [reduceCtorEq, false_iff]; exact fun hn => hn.2.1 h'
    · next h' =>
      split
      · next h'' => simp only [reduceCtorEq, false_iff]; omega
      · next h'' => simp only [true_iff]; exact ⟨h, h', by omega, by omega⟩

/-- `SETUP` completes: it raises an error and changes nothing else, or commits its context and clears the
key. -/
theorem execSetup_cases (s t : State) (h : execSetup s = .next t) :
    (∃ e, setupError s = some e ∧ t = raiseError e s) ∨
    (setupError s = none ∧ t = succeed (clearKey (commitContext (setupContext s) s))) := by
  unfold execSetup at h
  split at h
  · next e he => cases h; exact .inl ⟨e, he, rfl⟩
  · next he => cases h; exact .inr ⟨he, rfl⟩

end Sys2Proof.Machine
end

