-- ==== Sys2Proof/Laws/PerInstr.lean ====
section
/-! SUPPORT. The statements made per command, one family a namespace. -/

namespace Sys2Proof.Laws.Encoding

/-- The command is well formed, its command word decodes to it, and so does that word read as a word of
the opcode table (30_encoding.md R54). -/
def Statement (i : Instr) : Prop :=
  i.wf = true ∧ decode (encode i) = .ok i ∧ decodeTableWord 32 (encode i).toNat = some i

theorem setup : Statement .setup := ⟨rfl, rfl, rfl⟩

theorem enc : Statement .enc := ⟨rfl, rfl, rfl⟩

theorem dec : Statement .dec := ⟨rfl, rfl, rfl⟩

end Sys2Proof.Laws.Encoding
end

