-- ==== Sys2Proof/Laws/State.lean ====
section
/-! SUPPORT. One lemma per field of `State` for each operation that updates it, so that no later proof unfolds
a record update. -/

namespace Sys2Proof.Machine

/-! ### Taking an error (R124) -/

@[simp] theorem raiseError_params (e : ErrorCode) (s : State) : (raiseError e s).params = s.params := rfl

@[simp] theorem raiseError_ctx (e : ErrorCode) (s : State) : (raiseError e s).ctx = s.ctx := rfl

@[simp] theorem raiseError_blka (e : ErrorCode) (s : State) : (raiseError e s).blka = s.blka := rfl

@[simp] theorem raiseError_blkb (e : ErrorCode) (s : State) : (raiseError e s).blkb = s.blkb := rfl

@[simp] theorem raiseError_rounds (e : ErrorCode) (s : State) : (raiseError e s).rounds = s.rounds := rfl

@[simp] theorem raiseError_keylen (e : ErrorCode) (s : State) : (raiseError e s).keylen = s.keylen := rfl

@[simp] theorem raiseError_keyw (e : ErrorCode) (s : State) : (raiseError e s).keyw = s.keyw := rfl

@[simp] theorem raiseError_err (e : ErrorCode) (s : State) : (raiseError e s).err = e.code := rfl

@[simp] theorem raiseError_arrivals (e : ErrorCode) (s : State) : (raiseError e s).arrivals = s.arrivals := rfl

@[simp] theorem raiseError_replies (e : ErrorCode) (s : State) : (raiseError e s).replies = s.replies := rfl

/-! ### Ending in success (R125) -/

@[simp] theorem succeed_params (s : State) : (succeed s).params = s.params := rfl

@[simp] theorem succeed_ctx (s : State) : (succeed s).ctx = s.ctx := rfl

@[simp] theorem succeed_blka (s : State) : (succeed s).blka = s.blka := rfl

@[simp] theorem succeed_blkb (s : State) : (succeed s).blkb = s.blkb := rfl

@[simp] theorem succeed_rounds (s : State) : (succeed s).rounds = s.rounds := rfl

@[simp] theorem succeed_keylen (s : State) : (succeed s).keylen = s.keylen := rfl

@[simp] theorem succeed_keyw (s : State) : (succeed s).keyw = s.keyw := rfl

@[simp] theorem succeed_err (s : State) : (succeed s).err = 0 := rfl

@[simp] theorem succeed_arrivals (s : State) : (succeed s).arrivals = s.arrivals := rfl

@[simp] theorem succeed_replies (s : State) : (succeed s).replies = s.replies := rfl

/-! ### Commit (R72) -/

@[simp] theorem commitContext_params (c : Context) (s : State) : (commitContext c s).params = s.params := rfl

@[simp] theorem commitContext_ctx (c : Context) (s : State) : (commitContext c s).ctx = some c := rfl

@[simp] theorem commitContext_blka (c : Context) (s : State) : (commitContext c s).blka = s.blka := rfl

@[simp] theorem commitContext_blkb (c : Context) (s : State) : (commitContext c s).blkb = s.blkb := rfl

@[simp] theorem commitContext_rounds (c : Context) (s : State) : (commitContext c s).rounds = s.rounds := rfl

@[simp] theorem commitContext_keylen (c : Context) (s : State) : (commitContext c s).keylen = s.keylen := rfl

@[simp] theorem commitContext_keyw (c : Context) (s : State) : (commitContext c s).keyw = s.keyw := rfl

@[simp] theorem commitContext_err (c : Context) (s : State) : (commitContext c s).err = s.err := rfl

@[simp] theorem commitContext_arrivals (c : Context) (s : State) : (commitContext c s).arrivals = s.arrivals := rfl

@[simp] theorem commitContext_replies (c : Context) (s : State) : (commitContext c s).replies = s.replies := rfl

/-! ### Clearing of the key (R73) -/

@[simp] theorem clearKey_params (s : State) : (clearKey s).params = s.params := rfl

@[simp] theorem clearKey_ctx (s : State) : (clearKey s).ctx = s.ctx := rfl

@[simp] theorem clearKey_blka (s : State) : (clearKey s).blka = s.blka := rfl

@[simp] theorem clearKey_blkb (s : State) : (clearKey s).blkb = s.blkb := rfl

@[simp] theorem clearKey_rounds (s : State) : (clearKey s).rounds = s.rounds := rfl

@[simp] theorem clearKey_keylen (s : State) : (clearKey s).keylen = 0 := rfl

@[simp] theorem clearKey_keyw (s : State) : (clearKey s).keyw = List.replicate s.params.cMax 0 := rfl

@[simp] theorem clearKey_err (s : State) : (clearKey s).err = s.err := rfl

@[simp] theorem clearKey_arrivals (s : State) : (clearKey s).arrivals = s.arrivals := rfl

@[simp] theorem clearKey_replies (s : State) : (clearKey s).replies = s.replies := rfl

/-! ### Write-back of the block (R82, R90) -/

@[simp] theorem writeBlock_params (ab : Word × Word) (s : State) : (writeBlock ab s).params = s.params := rfl

@[simp] theorem writeBlock_ctx (ab : Word × Word) (s : State) : (writeBlock ab s).ctx = s.ctx := rfl

@[simp] theorem writeBlock_blka (ab : Word × Word) (s : State) : (writeBlock ab s).blka = ab.1 := rfl

@[simp] theorem writeBlock_blkb (ab : Word × Word) (s : State) : (writeBlock ab s).blkb = ab.2 := rfl

@[simp] theorem writeBlock_rounds (ab : Word × Word) (s : State) : (writeBlock ab s).rounds = s.rounds := rfl

@[simp] theorem writeBlock_keylen (ab : Word × Word) (s : State) : (writeBlock ab s).keylen = s.keylen := rfl

@[simp] theorem writeBlock_keyw (ab : Word × Word) (s : State) : (writeBlock ab s).keyw = s.keyw := rfl

@[simp] theorem writeBlock_err (ab : Word × Word) (s : State) : (writeBlock ab s).err = s.err := rfl

@[simp] theorem writeBlock_arrivals (ab : Word × Word) (s : State) : (writeBlock ab s).arrivals = s.arrivals := rfl

@[simp] theorem writeBlock_replies (ab : Word × Word) (s : State) : (writeBlock ab s).replies = s.replies := rfl

/-! ### The end of a read (R94) -/

@[simp] theorem reply_params (v : Word) (s : State) : (reply v s).params = s.params := rfl

@[simp] theorem reply_ctx (v : Word) (s : State) : (reply v s).ctx = s.ctx := rfl

@[simp] theorem reply_blka (v : Word) (s : State) : (reply v s).blka = s.blka := rfl

@[simp] theorem reply_blkb (v : Word) (s : State) : (reply v s).blkb = s.blkb := rfl

@[simp] theorem reply_rounds (v : Word) (s : State) : (reply v s).rounds = s.rounds := rfl

@[simp] theorem reply_keylen (v : Word) (s : State) : (reply v s).keylen = s.keylen := rfl

@[simp] theorem reply_keyw (v : Word) (s : State) : (reply v s).keyw = s.keyw := rfl

@[simp] theorem reply_err (v : Word) (s : State) : (reply v s).err = s.err := rfl

@[simp] theorem reply_arrivals (v : Word) (s : State) : (reply v s).arrivals = s.arrivals := rfl

@[simp] theorem reply_replies (v : Word) (s : State) : (reply v s).replies = v :: s.replies := rfl

/-! ### Reset (R136) -/

@[simp] theorem resetCore_params (s : State) : (resetCore s).params = s.params := rfl

@[simp] theorem resetCore_ctx (s : State) : (resetCore s).ctx = none := rfl

@[simp] theorem resetCore_blka (s : State) : (resetCore s).blka = 0 := rfl

@[simp] theorem resetCore_blkb (s : State) : (resetCore s).blkb = 0 := rfl

@[simp] theorem resetCore_rounds (s : State) : (resetCore s).rounds = 0 := rfl

@[simp] theorem resetCore_keylen (s : State) : (resetCore s).keylen = 0 := rfl

@[simp] theorem resetCore_keyw (s : State) : (resetCore s).keyw = List.replicate s.params.cMax 0 := rfl

@[simp] theorem resetCore_err (s : State) : (resetCore s).err = 0 := rfl

@[simp] theorem resetCore_arrivals (s : State) : (resetCore s).arrivals = s.arrivals := rfl

@[simp] theorem resetCore_replies (s : State) : (resetCore s).replies = s.replies := rfl

/-! ### Taking the next event off the arrival order -/

@[simp] theorem popped_params (s : State) : s.popped.params = s.params := rfl

@[simp] theorem popped_ctx (s : State) : s.popped.ctx = s.ctx := rfl

@[simp] theorem popped_blka (s : State) : s.popped.blka = s.blka := rfl

@[simp] theorem popped_blkb (s : State) : s.popped.blkb = s.blkb := rfl

@[simp] theorem popped_rounds (s : State) : s.popped.rounds = s.rounds := rfl

@[simp] theorem popped_keylen (s : State) : s.popped.keylen = s.keylen := rfl

@[simp] theorem popped_keyw (s : State) : s.popped.keyw = s.keyw := rfl

@[simp] theorem popped_err (s : State) : s.popped.err = s.err := rfl

@[simp] theorem popped_arrivals (s : State) : s.popped.arrivals = s.arrivals.tail := rfl

@[simp] theorem popped_replies (s : State) : s.popped.replies = s.replies := rfl

/-! ### The store of a host write (R95) -/

@[simp] theorem writeReg_params (r : Reg) (v : Word) (s : State) :
    (writeReg r v s).params = s.params := by cases r <;> rfl

@[simp] theorem writeReg_ctx (r : Reg) (v : Word) (s : State) :
    (writeReg r v s).ctx = s.ctx := by cases r <;> rfl

@[simp] theorem writeReg_err (r : Reg) (v : Word) (s : State) :
    (writeReg r v s).err = s.err := by cases r <;> rfl

@[simp] theorem writeReg_arrivals (r : Reg) (v : Word) (s : State) :
    (writeReg r v s).arrivals = s.arrivals := by cases r <;> rfl

@[simp] theorem writeReg_replies (r : Reg) (v : Word) (s : State) :
    (writeReg r v s).replies = s.replies := by cases r <;> rfl

@[simp] theorem writeReg_keyw_length (r : Reg) (v : Word) (s : State) :
    (writeReg r v s).keyw.length = s.keyw.length := by
  cases r <;> simp [writeReg]

theorem writeReg_blka (r : Reg) (v : Word) (s : State) :
    (writeReg r v s).blka = if r = .blka then v else s.blka := by cases r <;> rfl

theorem writeReg_blkb (r : Reg) (v : Word) (s : State) :
    (writeReg r v s).blkb = if r = .blkb then v else s.blkb := by cases r <;> rfl

theorem writeReg_rounds (r : Reg) (v : Word) (s : State) :
    (writeReg r v s).rounds = if r = .rounds then v else s.rounds := by cases r <;> rfl

theorem writeReg_keylen (r : Reg) (v : Word) (s : State) :
    (writeReg r v s).keylen = if r = .keylen then v else s.keylen := by cases r <;> rfl

/-! ### The reset state (R33) -/

@[simp] theorem resetWith_params (p : Params) : (State.resetWith p).params = p := rfl

@[simp] theorem resetWith_keyw (p : Params) :
    (State.resetWith p).keyw = List.replicate p.cMax 0 := rfl

@[simp] theorem resetWith_ctx (p : Params) : (State.resetWith p).ctx = none := rfl

end Sys2Proof.Machine
end

