-- ==== Sys2Proof/Laws/Step.lean ====
section
/-! SUPPORT. What a command and what a step can do, each said once. -/

namespace Sys2Proof.Machine

/-- A command raises an error and changes nothing else, or it succeeds: `SETUP` commits its context and
clears the key, `ENC` and `DEC` write a block back under the context in the slot. -/
theorem exec_cases (i : Instr) (s t : State) (h : exec i s = .next t) :
    (∃ e, e ≠ .illegalCommand ∧ t = raiseError e s) ∨
    (i = .setup ∧ setupError s = none ∧
      t = succeed (clearKey (commitContext (setupContext s) s))) ∨
    ((i = .enc ∨ i = .dec) ∧ s.ctx.isSome = true ∧ ∃ ab, t = succeed (writeBlock ab s)) := by
  cases i with
  | setup =>
    obtain ⟨e, he, rfl⟩ | ⟨he, rfl⟩ := execSetup_cases s t h
    · refine .inl ⟨e, ?_, rfl⟩
      rcases setupError_cases s e he with rfl | rfl | rfl <;> decide
    · exact .inr (.inl ⟨rfl, he, rfl⟩)
  | enc =>
    obtain ⟨_, rfl⟩ | ⟨c, hc, rfl⟩ := execEnc_cases s t h
    · exact .inl ⟨.noContext, by decide, rfl⟩
    · exact .inr (.inr ⟨.inl rfl, by simp [hc], _, rfl⟩)
  | dec =>
    obtain ⟨_, rfl⟩ | ⟨c, hc, rfl⟩ := execDec_cases s t h
    · exact .inl ⟨.noContext, by decide, rfl⟩
    · exact .inr (.inr ⟨.inr rfl, by simp [hc], _, rfl⟩)

/-- Every command answers a next state. -/
theorem exec_next (i : Instr) (s : State) : ∃ t, exec i s = .next t := by
  cases i with
  | setup => simp only [exec, execSetup]; split <;> exact ⟨_, rfl⟩
  | enc => simp only [exec, execEnc]; split <;> exact ⟨_, rfl⟩
  | dec => simp only [exec, execDec]; split <;> exact ⟨_, rfl⟩

/-- A step whose next event is an accepted access has its line's effect. -/
theorem step_access (s : State) (a : BusAccess) (rest : List HostEvent) (l : HostLine)
    (h : s.arrivals = .access a :: rest) (hd : decodeAccess s.params a = .ok l) :
    step s = execLine l { s with arrivals := rest } := by
  simp [step, h, handleEvent, hd]

/-- A step whose next event carries a well-formed host line has that line's effect. -/
theorem step_line (s : State) (l : HostLine) (rest : List HostEvent) (hw : l.wf s.params = true)
    (h : s.arrivals = .access (encodeLine s.params l) :: rest) :
    step s = execLine l { s with arrivals := rest } := by
  cases l with
  | rd r => exact step_access s _ rest _ h (decodeAccess_rd32 _ r hw)
  | wr r v => exact step_access s _ rest _ h (decodeAccess_wr32 _ r v hw)

/-- Everything a step can do: stay idle, reset the core, answer a read, store a word, run a command, or
reject a command word. -/
theorem step_cases (s t : State) (h : step s = .next t) :
    (s.arrivals = [] ∧ t = s) ∨
    (s.NextReset ∧ t = resetCore s.popped) ∨
    (∃ r, s.NextLine (.rd r) ∧ t = reply (readReg r s.popped) s.popped) ∨
    (∃ r v, r ≠ .cmd ∧ s.NextLine (.wr r v) ∧ t = writeReg r v s.popped) ∨
    (∃ i, s.NextCommand i ∧ exec i s.popped = .next t) ∨
    (∃ cw e, s.NextLine (.wr .cmd cw) ∧ decode cw = .error e ∧
      t = raiseError .illegalCommand s.popped) := by
  unfold step at h
  split at h
  · next ha => cases h; exact .inl ⟨ha, rfl⟩
  · next e rest ha =>
    have hp : { s with arrivals := rest } = s.popped := by simp [State.popped, ha]
    rw [hp] at h
    cases e with
    | reset => cases h; exact .inr (.inl ⟨⟨rest, ha⟩, rfl⟩)
    | access a =>
      simp only [handleEvent, popped_params] at h
      split at h
      · next l hl =>
        have hn : s.NextLine l := ⟨a, rest, ha, hl⟩
        cases l with
        | rd r => cases h; exact .inr (.inr (.inl ⟨r, hn, rfl⟩))
        | wr r v =>
          cases r with
          | cmd =>
            simp only [execLine, hostWrite, commandWrite] at h
            split at h
            · next i hi => exact .inr (.inr (.inr (.inr (.inl ⟨i, ⟨v, hn, hi⟩, h⟩))))
            · next e he =>
              cases h
              exact .inr (.inr (.inr (.inr (.inr ⟨v, e, hn, he, rfl⟩))))
          | _ =>
            cases h
            exact .inr (.inr (.inr (.inl ⟨_, v, by simp, hn, rfl⟩)))
      · cases h

/-! ### Runs -/

@[simp] theorem runFor_zero (s : State) : runFor 0 s = .next s := rfl

/-- A run whose first step goes on is the rest of the run from there. -/
theorem runFor_succ_of_next (n : Nat) (s t : State) (h : step s = .next t) :
    runFor (n + 1) s = runFor n t := by
  rw [runFor, h]

/-- A run from two states that step alike is the same from its first step on. -/
theorem runFor_succ_congr (n : Nat) (s u : State) (h : step u = step s) :
    runFor (n + 1) u = runFor (n + 1) s := by
  rw [runFor, runFor, h]

/-- A run of `m + n` steps is the run of `n` steps from where the run of `m` steps ends. -/
theorem runFor_add_of_next (m n : Nat) (s t : State) (h : runFor m s = .next t) :
    runFor (m + n) s = runFor n t := by
  induction m generalizing s with
  | zero => cases h; rw [Nat.zero_add]
  | succ m ih =>
    rw [Nat.succ_add, runFor]
    rw [runFor] at h
    split at h
    · next u hu => exact ih u h
    · cases h
    · cases h

/-- A host's run whose first step goes on. -/
theorem core_run_of_next (M : Host.Core) (n : Nat) (s t : M.State) (h : M.step s = .next t) :
    M.run (n + 1) s = M.run n t := by
  rw [Host.Core.run, h]

/-- A host's run whose first step is refused. -/
theorem core_run_of_refused (M : Host.Core) (n : Nat) (s : M.State) (r : M.Refusal)
    (h : M.step s = .refused r) : M.run (n + 1) s = .refused r := by
  rw [Host.Core.run, h]

/-- `runFor` is the host's `Core.run` of the machine. -/
theorem runFor_eq_core_run (n : Nat) (s : State) : runFor n s = Host.Core.run Sys2Proof.core n s := by
  induction n generalizing s with
  | zero => rfl
  | succ n ih =>
    rw [runFor]
    split
    · next t h => exact (ih t).trans (core_run_of_next Sys2Proof.core n s t h).symm
    · next f h => exact nomatch f
    · next r h => exact (core_run_of_refused Sys2Proof.core n s r h).symm

/-- A step takes the next event, if any, off the arrival order (R48). -/
theorem step_arrivals (s t : State) (hs : step s = .next t) : t.arrivals = s.arrivals.tail := by
  obtain ⟨h, rfl⟩ | ⟨_, rfl⟩ | ⟨r, _, rfl⟩ | ⟨r, v, _, _, rfl⟩ | ⟨i, _, he⟩ | ⟨cw, e, _, _, rfl⟩ :=
    step_cases s t hs
  · simp [h]
  · simp
  · simp
  · simp
  · obtain ⟨e, _, rfl⟩ | ⟨_, _, rfl⟩ | ⟨_, _, ab, rfl⟩ := exec_cases i _ t he <;> simp
  · simp

/-- A step never changes the parameters (R8). -/
theorem step_params (s t : State) (hs : step s = .next t) : t.params = s.params := by
  obtain ⟨h, rfl⟩ | ⟨_, rfl⟩ | ⟨r, _, rfl⟩ | ⟨r, v, _, _, rfl⟩ | ⟨i, _, he⟩ | ⟨cw, e, _, _, rfl⟩ :=
    step_cases s t hs
  · rfl
  · simp
  · simp
  · simp
  · obtain ⟨e, _, rfl⟩ | ⟨_, _, rfl⟩ | ⟨_, _, ab, rfl⟩ := exec_cases i _ t he <;> simp
  · simp

end Sys2Proof.Machine
end

