-- ==== Sys2Proof/Tests/Slice0.lean ====
section
/-! SUPPORT. Tests of the model, each expected value from the spec (95_test_vectors.md or a rule's worked
example, named at the test), and one witness for each statement that has hypotheses. -/

namespace Sys2Proof.Tests

open Sys2Proof.Machine Sys2Proof.Spec

/-! ### Helpers -/

/-- A small core: `R_MAX = 4`, `B_MAX = 5` and so `C_MAX = 2`, at base address 64. -/
def smallParams : Params := { rMax := 4, bMax := 5, base := 64 }

/-- A small core after reset. -/
def small : State := State.resetWith smallParams

/-- A small core with `ROUNDS`, `KEYLEN` and `KEYW[0]` loaded. -/
def loaded (rounds keylen key : Word) : State := { small with rounds := rounds, keylen := keylen, keyw := [key, 0] }

/-- The context of V1 (40_key_schedule.md R77). -/
def v1 : Context := { R := 1, S := [0xD1CE682A, 0x71B3F2BB, 0x1727B96C, 0x3329BB3A] }

/-- A small core with the context of V1 in the slot, and a block. -/
def withV1 (a b : Word) : State := { small with ctx := some v1, blka := a, blkb := b }

/-- A core with one event to handle. -/
def facing (s : State) (e : HostEvent) : State := { s with arrivals := [e] }

/-- An access to a small core at an offset: a read. -/
def rdAt (off : Nat) : HostEvent := .access (.rd32 (smallParams.base + off))

/-- An access to a small core at an offset: a write. -/
def wrAt (off : Nat) (v : Word) : HostEvent := .access (.wr32 (smallParams.base + off) v)

/-- What is left of an outcome for a comparison. -/
def refusalOf (o : Host.Outcome State Fault Refusal) : Option Refusal :=
  match o with
  | .next _ => none
  | .fault _ => none
  | .refused r => some r

theorem next_of {o : Host.Outcome State Fault Refusal} (h : (stateOf o).isSome = true) : ∃ t, o = .next t := by
  cases o with
  | next t => exact ⟨t, rfl⟩
  | fault f => cases h
  | refused r => cases h

theorem next_with {o : Host.Outcome State Fault Refusal} {P : State → Prop} [∀ t, Decidable (P t)]
    (h : (stateOf o).any (fun t => decide (P t)) = true) : ∃ t, o = .next t ∧ P t := by
  cases o with
  | next t => exact ⟨t, rfl, of_decide_eq_true h⟩
  | fault f => cases h
  | refused r => cases h

theorem refused_of {o : Host.Outcome State Fault Refusal} (h : (refusalOf o).isSome = true) :
    ∃ r, o = .refused r := by
  cases o with
  | next t => cases h
  | fault f => cases f
  | refused r => exact ⟨r, rfl⟩

/-! ### Well-formedness: each check refuses an ill-formed term -/

theorem test_params_default_wf : Params.default.wf = true := by decide
theorem test_params_small_wf : smallParams.wf = true := by decide
theorem test_params_rMax_zero : Params.wf { rMax := 0, bMax := 1, base := 0 } = false := by decide
theorem test_params_rMax_too_large : Params.wf { rMax := 2 ^ 32, bMax := 1, base := 0 } = false := by decide
theorem test_params_bMax_zero : Params.wf { rMax := 1, bMax := 0, base := 0 } = false := by decide
theorem test_params_bMax_too_large : Params.wf { rMax := 1, bMax := 2 ^ 32, base := 0 } = false := by decide
theorem test_params_base_misaligned : Params.wf { rMax := 1, bMax := 1, base := 2 } = false := by decide
theorem test_reg_keyw_last : Reg.wf smallParams (.keyw 1) = true := by decide
theorem test_reg_keyw_beyond : Reg.wf smallParams (.keyw 2) = false := by decide
theorem test_line_rd_beyond : HostLine.wf smallParams (.rd (.keyw 2)) = false := by decide
theorem test_line_wr_beyond : HostLine.wf smallParams (.wr (.keyw 2) 0) = false := by decide
theorem test_instr_wf : ∀ i ∈ [Instr.setup, .enc, .dec], i.wf = true := by decide

/-! ### Decoding, from the words of 30_encoding.md R54 written bit by bit -/

theorem test_decode_setup : decode 0b00000000000000000000000000000001 = .ok .setup := by decide
theorem test_decode_enc : decode 0b00000000000000000000000000000010 = .ok .enc := by decide
theorem test_decode_dec : decode 0b00000000000000000000000000000011 = .ok .dec := by decide
/-- X7: the word 0 is illegal. -/
theorem test_decode_zero : decode 0x00000000 = .error .unassignedOpcode := by decide
/-- X8. -/
theorem test_decode_four : decode 0x00000004 = .error .unassignedOpcode := by decide
/-- X9: `OPC` is `ENC`'s, `RSV` is not zero. -/
theorem test_decode_rsv : decode 0x00000102 = .error .reservedBitsSet := by decide
/-- X10. -/
theorem test_decode_top_bit : decode 0x80000001 = .error .reservedBitsSet := by decide
/-- X10. -/
theorem test_decode_ff : decode 0x000000FF = .error .unassignedOpcode := by decide
theorem test_table_word : decodeTableWord 32 3 = some .dec := by decide

/-! ### Primitives (00_scope.md R11, R13, R14) -/

theorem test_sub32_wraps : sub32 0 1 = 0xFFFFFFFF := by decide
/-- 41_encrypt.md R85: `rotl32(0xA07D9A91, 27) = 0x8D03ECD4`. -/
theorem test_rotl32 : rotl32 0xA07D9A91 27 = 0x8D03ECD4 := by decide
/-- 42_decrypt.md R93: `rotr32(0x8D03ECD4, 27) = 0xA07D9A91`. -/
theorem test_rotr32 : rotr32 0x8D03ECD4 27 = 0xA07D9A91 := by decide
theorem test_rot_multiple_of_32 : rotl32 0x80000001 64 = 0x80000001 := by decide
/-- 20_memory.md R38: `"test"` is `0x74736574`. -/
theorem test_le32 : le32 0x74 0x65 0x73 0x74 = 0x74736574 := by decide
/-- 20_memory.md R39: the 5-byte key `01 02 03 04 05`, with stale bytes above it in the buffer. -/
theorem test_pack_key :
    packKey (keyBytes [0x04030201, 0xFFFFFF05] 5) = [0x04030201, 0x00000005] := by decide

/-! ### The commands -/

/-- V1 (40_key_schedule.md R77), with stale bytes above the key as in P3: the table. -/
theorem test_setup_v1 :
    (stateOf (exec .setup (loaded 1 1 0xAABBCC00))).bind State.ctx = some v1 := by decide
/-- X13: the document's conditions come before the capacity. -/
theorem test_setup_priority :
    (stateOf (exec .setup (loaded 0 256 0))).map State.err = some 1 := by decide
/-- V1e (41_encrypt.md R85). -/
theorem test_enc_v1e :
    (stateOf (exec .enc (withV1 0 0))).map block = some (0xA42BA640, 0x08C21035) := by decide
/-- X5: the slot is empty. -/
theorem test_enc_no_context :
    stateOf (exec .enc { small with blka := 0x12345678 }) =
      some { small with blka := 0x12345678, err := 4 } := by decide
/-- V1d (42_decrypt.md R93). -/
theorem test_dec_v1d :
    (stateOf (exec .dec (withV1 0xA42BA640 0x08C21035))).map block = some (0, 0) := by decide
/-- P1 steps 12 to 14 (95_test_vectors.md), with the status read of R62: the block just encrypted is decrypted
without loading it. -/
theorem test_decrypt_held_block :
    observed (runFor 4
      { withV1 0xA42BA640 0x08C21035 with arrivals := eventsOf smallParams decryptHeldBlockLines }) =
      some [0, 0, 0x00000001] := by decide +kernel
/-- V15d. -/
theorem test_dec_v15d :
    (stateOf (exec .dec (withV1 0 0))).map block = some (0xCDA6BDB2, 0x5B22520B) := by decide

/-! ### The host's accesses and reset (95_test_vectors.md section 2.5) -/

/-- X9 and R100 (c): an illegal command with a valid context, and the status word after it. -/
theorem test_illegal_status :
    (stateOf (step (facing (withV1 7 9) (wrAt 0x000 0x00000102)))).map statusWord = some 0x00000501 := by
  decide
/-- H8: `KEYW` is not readable. -/
theorem test_read_keyw :
    (stateOf (step (facing (loaded 1 1 0xDEADBEEF) (rdAt 0x100)))).map State.replies = some [0] := by
  decide
/-- H9: a write to `STATUS` is ignored. -/
theorem test_write_status :
    stateOf (step (facing (withV1 7 9) (wrAt 0x004 0xFFFFFFFF))) = some (withV1 7 9) := by decide
/-- H16: a reserved offset, here the first above the key buffer. -/
theorem test_reserved_refused :
    refusalOf (step (facing small (rdAt 0x108))) = some (.accessNotAccepted .reservedOffset) := by decide
/-- H17. -/
theorem test_misaligned_refused :
    refusalOf (step (facing small (wrAt 0x011 0))) = some (.accessNotAccepted .misaligned) := by decide
/-- H18. -/
theorem test_narrow_refused :
    refusalOf (step (facing small (.access (.otherWidth .write .bits8 (smallParams.base + 0x010))))) =
      some (.accessNotAccepted .otherWidth) := by decide
/-- R136: a reset empties the slot. -/
theorem test_reset_event : stateOf (step (facing (withV1 7 9) .reset)) = some small := by decide
/-- A command word placed as the next event runs as the first command after reset: `SETUP` finds
`ROUNDS = 0` (X3). -/
theorem test_fetch_word :
    stateOf (step (State.reset.withFetchWord 32 1)) = some { State.reset with err := 1 } := by decide

/-! ### Witnesses: for each statement with hypotheses, states and operands that meet them all -/

theorem v1_wf : v1.Wf smallParams := ⟨by decide, by decide, by decide⟩

theorem small_inv : small.Inv := ⟨by decide, by decide, by decide, fun _ h => nomatch h⟩

theorem withV1_inv (a b : Word) : (withV1 a b).Inv :=
  ⟨(by decide : smallParams.wf = true), (by decide : small.keyw.length = smallParams.cMax),
    (by decide : small.err.toNat ≤ 5), fun c h => by cases h; exact v1_wf⟩

theorem not_starts_wr (cw : Word) (i : Instr) (h : decode cw ≠ .ok i) :
    ¬ Starts smallParams i (wrAt 0x000 cw) := by
  rintro ⟨a, cw', ha, hd, hc⟩
  injection ha with ha
  subst ha
  have he : decodeAccess smallParams (.wr32 (smallParams.base + 0x000) cw) = .ok (.wr .cmd cw) :=
    decodeAccess_wr32 smallParams .cmd cw rfl
  rw [he] at hd
  cases hd
  exact h hc

theorem not_starts_rd (r : Reg) (i : Instr) (h : r.wf smallParams = true) :
    ¬ Starts smallParams i (rdAt r.offset) := by
  rintro ⟨a, cw', ha, hd, hc⟩
  injection ha with ha
  subst ha
  rw [decodeAccess_rd32 smallParams r h] at hd
  cases hd

theorem witness_ResetLeavesSlotEmptyAndRegistersZero : 0 < smallParams.cMax ∧ 1 < smallParams.cMax := by
  decide

theorem witness_ResetStateSatisfiesInvariant :
    Params.wf { rMax := 1, bMax := 1, base := 4 } = true ∧
    Params.wf { rMax := 2 ^ 32 - 1, bMax := 2 ^ 32 - 1, base := 0 } = true := by decide

theorem witness_StepKeepsInvariant :
    (facing (withV1 0 0) (wrAt 0x000 2)).Inv ∧ ∃ t, step (facing (withV1 0 0) (wrAt 0x000 2)) = .next t :=
  ⟨⟨(withV1_inv 0 0).params_wf, (withV1_inv 0 0).keyw_length, (withV1_inv 0 0).err_le,
    (withV1_inv 0 0).ctx_wf⟩, next_of (by decide +kernel)⟩

theorem witness_DecodeAndEncodeAgree :
    Instr.dec.wf = true ∧ decode 0x00000003 = .ok .dec ∧
    HostLine.wf smallParams (.wr (.keyw 0) 0xFFFFFFFF) = true ∧
    HostLine.wf smallParams (.rd (.keyw 1)) = true ∧
    decodeAccess smallParams (.rd32 (64 + 0x104)) = .ok (.rd (.keyw 1)) := by decide

theorem witness_StepRunsTheDecodedCommand :
    (facing (withV1 0 0) (wrAt 0x000 2)).arrivals = .access (.wr32 64 2) :: [] ∧
    decodeAccess (facing (withV1 0 0) (wrAt 0x000 2)).params (.wr32 64 2) = .ok (.wr .cmd 2) ∧
    decode 2 = .ok .enc := by decide

theorem witness_IllegalCommandWordChangesOnlyErr :
    (facing small (wrAt 0x000 0xFFFFFFFF)).arrivals = .access (.wr32 small.params.base 0xFFFFFFFF) :: [] ∧
    (0xFFFFFFFF : Word) ≠ 0x00000001 ∧ (0xFFFFFFFF : Word) ≠ 0x00000002 ∧
    (0xFFFFFFFF : Word) ≠ 0x00000003 ∧ (0x00000000 : Word) ≠ 0x00000001 ∧
    (0x00000004 : Word) ≠ 0x00000003 := by decide

theorem witness_IdleCoreKeepsItsState : (withV1 7 9).arrivals = [] := by decide

theorem witness_LaterEventsDoNotInfluenceAStep :
    ∃ t, step { withV1 0 0 with arrivals := wrAt 0x000 2 :: [rdAt 0x010] } = .next t :=
  next_of (by decide +kernel)

/-- An access, a reset, and an access to the last word of the key buffer. -/
def acceptedEvents : List HostEvent := [wrAt 0x000 1, .reset, rdAt 0x104]

theorem witness_AcceptedEventsRunSafely :
    State.Inv { small with arrivals := acceptedEvents } ∧
    ∀ e ∈ acceptedEvents, Accepted smallParams e := by
  refine ⟨⟨small_inv.params_wf, small_inv.keyw_length, small_inv.err_le, small_inv.ctx_wf⟩, ?_⟩
  intro e he
  simp only [acceptedEvents, List.mem_cons, List.not_mem_nil, or_false] at he
  obtain rfl | rfl | rfl := he
  exacts [⟨_, decodeAccess_wr32 _ .cmd 1 rfl⟩, trivial, ⟨_, decodeAccess_rd32 _ (.keyw 1) (by decide)⟩]

theorem witness_StepStopsOnlyOnUnacceptedAccess :
    (∃ t, step (facing small (rdAt 0x104)) = .next t) ∧
    (∃ r, step (facing small (rdAt 0x108)) = .refused r) :=
  ⟨next_of (by decide +kernel), refused_of (by decide +kernel)⟩

theorem witness_SetupReportsFirstFailingCheck :
    (loaded 0 0 0).rounds = 0 ∧
    ((loaded 1 0 0).rounds ≠ 0 ∧ (loaded 1 0 0).keylen = 0) ∧
    ((loaded 5 1 0).rounds ≠ 0 ∧ (loaded 5 1 0).keylen ≠ 0 ∧
      (loaded 5 1 0).params.rMax < (loaded 5 1 0).rounds.toNat) ∧
    ((loaded 4 6 0).rounds ≠ 0 ∧ (loaded 4 6 0).keylen ≠ 0 ∧
      (loaded 4 6 0).params.bMax < (loaded 4 6 0).keylen.toNat) ∧
    ((loaded 4 5 0).rounds ≠ 0 ∧ (loaded 4 5 0).keylen ≠ 0 ∧
      (loaded 4 5 0).rounds.toNat ≤ (loaded 4 5 0).params.rMax ∧
      (loaded 4 5 0).keylen.toNat ≤ (loaded 4 5 0).params.bMax) := by decide

/-- The smallest and the largest operands that a small core accepts. -/
theorem witness_SetupConstructsTheMixedTable :
    SetupAccepts (loaded 1 1 0) ∧ SetupAccepts (loaded 4 5 0) :=
  ⟨⟨by decide, by decide, by decide, by decide⟩, ⟨by decide, by decide, by decide, by decide⟩⟩

theorem witness_InitialTableIsAnArithmeticProgression : 0 < 4 ∧ 3 < 4 := by decide

/-- A key that fills its last word and one that does not, each with a word below the last. -/
theorem witness_PackedKeyMasksTheLastWord :
    (1 ≤ 8 ∧ 0 + 1 < (8 + 3) / 4 ∧ 8 % 4 = 0) ∧ (1 ≤ 5 ∧ 0 + 1 < (5 + 3) / 4 ∧ 5 % 4 ≠ 0) := by decide

theorem witness_CommandIndicesStayInRange :
    (0 < 4 ∧ 0 < 1 ∧ (initTable 4).length = 4 ∧ (packKey [0]).length = 1) ∧
    (loaded 4 5 0).Inv ∧ SetupAccepts (loaded 4 5 0) ∧ 4 < (loaded 4 5 0).keylen.toNat ∧
    v1.Wf smallParams ∧ 1 ≤ 1 ∧ 1 ≤ v1.R.toNat :=
  ⟨by decide, ⟨by decide, by decide, by decide, fun _ h => nomatch h⟩,
    witness_SetupConstructsTheMixedTable.2, by decide, v1_wf, by decide, by decide⟩

/-- The bytes above the key differ, and so does everything else that `SETUP` does not read. -/
theorem witness_SetupDependsOnKeyAndRoundsOnly :
    SetupAccepts (loaded 1 1 0) ∧ SetupAccepts { loaded 1 1 0xAABBCC00 with ctx := some v1, blka := 7 } ∧
    ∀ k, k < (loaded 1 1 0).keylen.toNat →
      byte ((loaded 1 1 0xAABBCC00).keyw.getD (k / 4) 0) (k % 4) =
        byte ((loaded 1 1 0).keyw.getD (k / 4) 0) (k % 4) :=
  ⟨⟨by decide, by decide, by decide, by decide⟩, ⟨by decide, by decide, by decide, by decide⟩, by
    intro k hk
    have : k = 0 := Nat.lt_one_iff.mp hk
    subst this
    decide⟩

theorem witness_TrailingZeroBytesKeepTheTable :
    (([1] : List Byte).length + 3 + 3) / 4 = (([1] : List Byte).length + 3) / 4 := by decide

theorem witness_SetupFrame :
    (∃ t, exec .setup (loaded 1 1 0) = .next t ∧ t.err = 0) ∧
    (∃ t, exec .setup (loaded 0 1 0) = .next t ∧ t.err ≠ 0) :=
  ⟨next_with (by decide +kernel), next_with (by decide +kernel)⟩

theorem witness_SecondSetupWithoutReloadIsKeyEmpty :
    ∃ t, exec .setup (loaded 1 1 0) = .next t ∧ t.err = 0 :=
  next_with (by decide +kernel)

theorem witness_BlockCommandsNeedAContext : small.ctx = none := rfl

/-- One premise, met by the same state: of `EncLeavesTheLastRound`, `DecLeavesTheLastRound`,
`DecAfterEncRestoresTheBlock` and `EncAfterDecRestoresTheBlock`. -/
theorem witness_EncLeavesTheLastRound : (withV1 0 0).ctx = some v1 ∧ 1 ≤ 1 ∧ 1 ≤ v1.R.toNat := by decide
theorem witness_DecLeavesTheLastRound : (withV1 7 9).ctx = some v1 ∧ 1 ≤ 1 ∧ 1 ≤ v1.R.toNat := by decide
theorem witness_DecAfterEncRestoresTheBlock : (withV1 0 0).ctx = some v1 := rfl
theorem witness_EncAfterDecRestoresTheBlock : (withV1 0 0).ctx = some v1 := rfl

/-- Round 1 of V1e (41_encrypt.md R85). -/
theorem witness_EachDecStepUndoesAnEncStep :
    (0xA42BA640 : Word) =
      rotl32 (0xD1CE682A ^^^ 0x71B3F2BB) (0x71B3F2BB : Word).toNat + tableWord v1 (2 * 1) ∧
    (0x08C21035 : Word) =
      rotl32 (0x71B3F2BB ^^^ 0xA42BA640) (0xA42BA640 : Word).toNat + tableWord v1 (2 * 1 + 1) := by decide

theorem witness_BlockCommandsFrame :
    (∃ t, exec .enc (withV1 0 0) = .next t ∧ t.err = 0) ∧
    (∃ t, exec .dec (withV1 0 0) = .next t ∧ t.err = 0) ∧
    (∃ t, exec .enc small = .next t ∧ t.err ≠ 0) ∧ (∃ t, exec .dec small = .next t ∧ t.err ≠ 0) :=
  ⟨next_with (by decide +kernel), next_with (by decide +kernel),
    next_with (by decide +kernel), next_with (by decide +kernel)⟩

/-- A second state with another `ROUNDS` and another key. -/
def otherV1 : State := { withV1 0 0 with rounds := 3, keylen := 2, keyw := [0xFFFFFFFF, 5] }

theorem witness_BlockCommandsDependOnContextAndBlockOnly :
    otherV1.ctx = (withV1 0 0).ctx ∧ otherV1.blka = (withV1 0 0).blka ∧
    otherV1.blkb = (withV1 0 0).blkb ∧ (∃ t, exec .enc (withV1 0 0) = .next t) ∧
    (∃ v, exec .enc otherV1 = .next v) ∧ (∃ t, exec .dec (withV1 0 0) = .next t) ∧
    (∃ v, exec .dec otherV1 = .next v) :=
  ⟨rfl, rfl, rfl, next_of (by decide +kernel), next_of (by decide +kernel),
    next_of (by decide +kernel), next_of (by decide +kernel)⟩

/-- A command that fails, one that succeeds, and an illegal word. -/
theorem witness_FailedCommandChangesOnlyErr :
    (facing small (wrAt 0x000 2)).NextLine (.wr .cmd 2) ∧
    (facing (withV1 0 0) (wrAt 0x000 2)).NextLine (.wr .cmd 2) ∧
    (facing small (wrAt 0x000 0)).NextLine (.wr .cmd 0) :=
  ⟨⟨_, _, rfl, decodeAccess_wr32 _ .cmd 2 rfl⟩, ⟨_, _, rfl, decodeAccess_wr32 _ .cmd 2 rfl⟩,
    ⟨_, _, rfl, decodeAccess_wr32 _ .cmd 0 rfl⟩⟩

theorem witness_ReadsReturnTheRegister :
    ∀ r ∈ [Reg.cmd, .status, .rounds, .keylen, .blka, .blkb, .keyw 0, .keyw 1],
      r.wf (facing (withV1 7 9) (rdAt r.offset)).params = true ∧
      (facing (withV1 7 9) (rdAt r.offset)).arrivals =
        .access (.rd32 ((facing (withV1 7 9) (rdAt r.offset)).params.base + r.offset)) :: [] := by decide

theorem witness_StatusWordFields :
    (facing (withV1 7 9) (rdAt 0x004)).arrivals = .access (.rd32 (smallParams.base + 0x004)) :: [] := rfl

theorem witness_WritesStoreInTheRegister :
    (∀ off ∈ [0x004, 0x008, 0x00C, 0x010, 0x014],
      (facing small (wrAt off 5)).arrivals = .access (.wr32 (small.params.base + off) 5) :: []) ∧
    (∀ m ∈ [0, 1], m < small.params.cMax ∧
      (facing small (wrAt (0x100 + 4 * m) 5)).arrivals =
        .access (.wr32 (small.params.base + (0x100 + 4 * m)) 5) :: []) := by decide

theorem witness_OperandWritesCommute :
    (Reg.blka).wf small.params = true ∧ (Reg.keyw 1).wf small.params = true ∧ Reg.blka ≠ .cmd ∧
    Reg.keyw 1 ≠ .cmd ∧ Reg.blka ≠ .keyw 1 ∧ (Reg.keyw 0).wf small.params = true ∧
    Reg.keyw 0 ≠ .keyw 1 := by decide

/-- Both ends of each reserved range, and every misaligned remainder. -/
theorem witness_UnacceptedAccessesAreRefused :
    (∃ kind width addr, BusAccess.otherWidth .write .bits8 (64 + 0x010) = .otherWidth kind width addr) ∧
    (∀ off ∈ [0x001, 0x002, 0x107], off % 4 ≠ 0) ∧
    (∀ off ∈ [0x018, 0x0FC], off % 4 = 0 ∧ 0x018 ≤ off ∧ off < 0x100) ∧
    (∀ off ∈ [0x108, 0x10C], off % 4 = 0 ∧ 0x018 ≤ off ∧ 0x100 + 4 * small.params.cMax ≤ off) ∧
    (facing small (rdAt 0x018)).arrivals = .access (.rd32 (small.params.base + 0x018)) :: [] ∧
    (facing small (wrAt 0x108 5)).arrivals = .access (.wr32 (small.params.base + 0x108) 5) :: [] :=
  ⟨⟨_, _, _, rfl⟩, by decide, by decide, by decide, rfl, rfl⟩

theorem witness_BlockAndKeyBytesLieInOrder :
    (Reg.keyw 1).wf small.params = true ∧ 0 < 4 ∧ 3 < 4 ∧ 0 < 4 * small.params.cMax ∧
    7 < 4 * small.params.cMax := by decide

/-- One premise of `ResetEventGivesTheResetState`; with a second state of `ResetDestroysContextAndKey`. -/
theorem witness_ResetEventGivesTheResetState :
    (facing (withV1 7 9) .reset).arrivals = .reset :: [] := rfl

theorem witness_ResetDestroysContextAndKey :
    (facing (withV1 7 9) .reset).arrivals = .reset :: [] ∧
    (facing (loaded 1 1 5) .reset).arrivals = (facing (withV1 7 9) .reset).arrivals ∧
    (facing (loaded 1 1 5) .reset).params = (facing (withV1 7 9) .reset).params ∧
    (facing (loaded 1 1 5) .reset).replies = (facing (withV1 7 9) .reset).replies := by decide

theorem witness_ResetWinsOverTheCommandBeforeIt :
    State.arrivals { loaded 1 1 0 with arrivals := [wrAt 0x000 1, .reset] } =
      .access (.wr32 64 1) :: .reset :: [] ∧
    decodeAccess smallParams (.wr32 64 1) = .ok (.wr .cmd 1) := by decide

/-- Both ways in which the context changes. -/
theorem witness_ContextChangesOnlyBySetupOrReset :
    (∃ t, step (facing (loaded 1 1 0) (wrAt 0x000 1)) = .next t ∧
      t.ctx ≠ (facing (loaded 1 1 0) (wrAt 0x000 1)).ctx) ∧
    (∃ t, step (facing (withV1 0 0) .reset) = .next t ∧ t.ctx ≠ (facing (withV1 0 0) .reset).ctx) :=
  ⟨next_with (by decide +kernel), next_with (by decide +kernel)⟩

theorem witness_ContextIsSharedByAllBlocks :
    (∀ e ∈ (facing (withV1 0 0) (wrAt 0x000 2)).arrivals, e ≠ .reset ∧ ¬ Starts smallParams .setup e) ∧
    ∃ t, runFor 1 (facing (withV1 0 0) (wrAt 0x000 2)) = .next t := by
  refine ⟨?_, next_of (by decide +kernel)⟩
  intro e he
  rw [List.mem_singleton.mp he]
  refine ⟨by decide, ?_⟩
  exact not_starts_wr 2 .setup (by decide)

/-- Each register changes in some step. -/
theorem witness_RegistersAreWrittenOnlyByTheirWriters :
    (∃ t, step (facing small (wrAt 0x000 2)) = .next t ∧ t.err ≠ 0) ∧
    (∃ t, step (facing (withV1 0 0) (wrAt 0x000 2)) = .next t ∧ t.blka ≠ 0 ∧ t.blkb ≠ 0) ∧
    (∃ t, step (facing small (wrAt 0x008 5)) = .next t ∧ t.rounds ≠ 0) ∧
    (∃ t, step (facing (loaded 1 1 9) (wrAt 0x000 1)) = .next t ∧ t.keylen ≠ 1 ∧ t.keyw ≠ [9, 0]) :=
  ⟨next_with (by decide +kernel), next_with (by decide +kernel),
    next_with (by decide +kernel), next_with (by decide +kernel)⟩

/-- Two states that differ in the key alone, before a `SETUP`. -/
theorem witness_StepKeepsTheSecretsUnseen :
    SameButSecrets (facing (loaded 1 1 0) (wrAt 0x000 1)) (facing (loaded 1 1 255) (wrAt 0x000 1)) ∧
    (∀ e rest, (facing (loaded 1 1 0) (wrAt 0x000 1)).arrivals = e :: rest →
      ¬ Starts smallParams .enc e ∧ ¬ Starts smallParams .dec e) ∧
    ∃ t, step (facing (loaded 1 1 0) (wrAt 0x000 1)) = .next t :=
  ⟨⟨rfl, rfl, rfl, rfl, rfl, rfl, rfl, rfl, rfl⟩,
    fun e rest h => by
      injection h with h _
      subst h
      exact ⟨not_starts_wr 1 .enc (by decide), not_starts_wr 1 .dec (by decide)⟩,
    next_of (by decide +kernel)⟩

/-- Two states that differ in the key alone, before a `SETUP` and a read of the key buffer. -/
theorem witness_KeyAndTableCannotBeReadOut :
    SameButSecrets { loaded 1 1 0 with arrivals := [wrAt 0x000 1, rdAt 0x100] }
      { loaded 1 1 255 with arrivals := [wrAt 0x000 1, rdAt 0x100] } ∧
    ∀ e ∈ [wrAt 0x000 1, rdAt 0x100], ¬ Starts smallParams .enc e ∧ ¬ Starts smallParams .dec e := by
  refine ⟨⟨rfl, rfl, rfl, rfl, rfl, rfl, rfl, rfl, rfl⟩, ?_⟩
  intro e he
  simp only [List.mem_cons, List.not_mem_nil, or_false] at he
  obtain rfl | rfl := he
  · exact ⟨not_starts_wr 1 .enc (by decide), not_starts_wr 1 .dec (by decide)⟩
  · exact ⟨not_starts_rd (.keyw 0) .enc rfl, not_starts_rd (.keyw 0) .dec rfl⟩

/-- The largest key and the largest round count of a small core. -/
theorem witness_ConstructBuildsTheContext :
    small.Inv ∧ ([1, 2, 3, 4, 5] : List Byte) ≠ [] ∧
    ([1, 2, 3, 4, 5] : List Byte).length ≤ small.params.bMax ∧ (4 : Word) ≠ 0 ∧
    (4 : Word).toNat ≤ small.params.rMax ∧
    State.Inv { small with arrivals := eventsOf smallParams (constructLines [1, 2, 3, 4, 5] 4) } :=
  ⟨small_inv, by decide, by decide, by decide, by decide,
    ⟨small_inv.params_wf, small_inv.keyw_length, small_inv.err_le, small_inv.ctx_wf⟩⟩

/-- The block `"testtest"` under the context of V1. -/
theorem witness_DecryptBlockReturnsTheEncryptedBuffer :
    ∃ (s : State) (x y : Vector Byte 8), s.ctx = some v1 ∧
      x = #v[0x74, 0x65, 0x73, 0x74, 0x74, 0x65, 0x73, 0x74] ∧
      y = bufferOf (encBlock v1 (bufferA x, bufferB x)).1 (encBlock v1 (bufferA x, bufferB x)).2 ∧
      s.arrivals = eventsOf s.params (encryptBlockLines x ++ decryptBlockLines y) ++ [] :=
  ⟨{ withV1 0 0 with
      arrivals := eventsOf smallParams
        (encryptBlockLines #v[0x74, 0x65, 0x73, 0x74, 0x74, 0x65, 0x73, 0x74] ++
          decryptBlockLines
            (bufferOf (encBlock v1 (0x74736574, 0x74736574)).1 (encBlock v1 (0x74736574, 0x74736574)).2)) },
    _, _, rfl, rfl, rfl, by rw [List.append_nil]; rfl⟩

/-- Each form of R62 without the `WR` lines, with a context and without. -/
theorem witness_HeldBlockIsTransformedInPlace :
    ∃ p q r : State,
      (p.ctx = some v1 ∧ p.arrivals = eventsOf p.params encryptHeldBlockLines ++ []) ∧
      (q.ctx = some v1 ∧ q.arrivals = eventsOf q.params decryptHeldBlockLines ++ []) ∧
      (r.ctx = none ∧ r.arrivals = eventsOf r.params (heldBlockLines .dec) ++ []) :=
  ⟨{ withV1 0 0 with arrivals := eventsOf smallParams encryptHeldBlockLines },
    { withV1 0xA42BA640 0x08C21035 with arrivals := eventsOf smallParams decryptHeldBlockLines },
    { small with arrivals := eventsOf smallParams (heldBlockLines .dec) },
    ⟨rfl, (List.append_nil _).symm⟩, ⟨rfl, (List.append_nil _).symm⟩, rfl, (List.append_nil _).symm⟩

/-- A multiple of 32 and an amount that is none. -/
theorem witness_RotationLaws : 64 % 32 = 0 ∧ 33 % 32 ≠ 0 := by decide

theorem witness_WordsAreLittleEndian : 0 < 4 ∧ 3 < 4 := by decide

end Sys2Proof.Tests
end

/-! SUPPORT. Proofs of the statements of 00_scope.md: the invariant of the machine, who writes each register,
and the arithmetic on words and bytes. -/

namespace Sys2Proof.Machine

/-! ### The invariant: each operation over the state keeps it -/

/-- Every error code is at most 5 (R115). -/
theorem ErrorCode.code_le (e : ErrorCode) : e.code.toNat ≤ 5 := by
  cases e <;> decide

/-- The reset state of every legal choice of the parameters is good: zero is a legal code, and an empty slot
asks for nothing (R33). -/
theorem resetWith_inv {p : Params} (hp : p.wf = true) : (State.resetWith p).Inv where
  params_wf := hp
  keyw_length := by simp
  err_le := Nat.zero_le 5
  ctx_wf := by simp

section Operations

variable {s : State} (hs : s.Inv)
include hs

theorem popped_inv : s.popped.Inv :=
  ⟨hs.params_wf, hs.keyw_length, hs.err_le, hs.ctx_wf⟩

theorem reply_inv (v : Word) : (reply v s).Inv :=
  ⟨hs.params_wf, hs.keyw_length, hs.err_le, hs.ctx_wf⟩

theorem raiseError_inv (e : ErrorCode) : (raiseError e s).Inv :=
  ⟨hs.params_wf, hs.keyw_length, e.code_le, hs.ctx_wf⟩

theorem succeed_inv : (succeed s).Inv :=
  ⟨hs.params_wf, hs.keyw_length, Nat.zero_le 5, hs.ctx_wf⟩

theorem writeBlock_inv (ab : Word × Word) : (writeBlock ab s).Inv :=
  ⟨hs.params_wf, hs.keyw_length, hs.err_le, hs.ctx_wf⟩

theorem clearKey_inv : (clearKey s).Inv :=
  ⟨hs.params_wf, by simp, hs.err_le, hs.ctx_wf⟩

theorem commitContext_inv {c : Context} (hc : c.Wf s.params) : (commitContext c s).Inv :=
  ⟨hs.params_wf, hs.keyw_length, hs.err_le, by simpa using hc⟩

theorem resetCore_inv : (resetCore s).Inv :=
  have hr := resetWith_inv hs.params_wf
  ⟨hr.params_wf, hr.keyw_length, hr.err_le, hr.ctx_wf⟩

theorem writeReg_inv (r : Reg) (v : Word) : (writeReg r v s).Inv where
  params_wf := by simpa using hs.params_wf
  keyw_length := by simpa using hs.keyw_length
  err_le := by simpa using hs.err_le
  ctx_wf := by simpa using hs.ctx_wf

end Operations

/-- The context that `SETUP` commits once its checks have passed is one the core can hold (R104). -/
theorem setupContext_wf {s : State} (h : setupError s = none) : (setupContext s).Wf s.params := by
  obtain ⟨hr, _, hle, _⟩ := (setupError_eq_none_iff s).mp h
  have hpos : s.rounds.toNat ≠ 0 := fun h0 => hr (BitVec.eq_of_toNat_eq h0)
  exact ⟨Nat.one_le_iff_ne_zero.mpr hpos, hle, expand_length _ _⟩

/-- Every command keeps the invariant. -/
theorem exec_keeps_inv {i : Instr} {s t : State} (hs : s.Inv) (h : exec i s = .next t) : t.Inv := by
  obtain ⟨e, _, rfl⟩ | ⟨_, hok, rfl⟩ | ⟨_, _, ab, rfl⟩ := exec_cases i s t h
  · exact raiseError_inv hs e
  · exact succeed_inv (clearKey_inv (commitContext_inv hs (setupContext_wf hok)))
  · exact succeed_inv (writeBlock_inv hs ab)

/-- Settles O3, by the cases of a step: each operation a step applies keeps the invariant. -/
theorem stepKeepsInvariant : Obligations.StepKeepsInvariant := by
  intro s t hs h
  have hp : s.popped.Inv := popped_inv hs
  obtain ⟨_, rfl⟩ | ⟨_, rfl⟩ | ⟨r, _, rfl⟩ | ⟨r, v, _, _, rfl⟩ | ⟨i, _, he⟩ | ⟨cw, e, _, _, rfl⟩ :=
    step_cases s t h
  · exact hs
  · exact resetCore_inv hp
  · exact reply_inv hp _
  · exact writeReg_inv hp r v
  · exact exec_keeps_inv hp he
  · exact raiseError_inv hp _

/-- Settles O2: the defaults of R8 are a legal choice of the parameters. -/
theorem resetStateSatisfiesInvariant : Obligations.ResetStateSatisfiesInvariant :=
  ⟨fun _ hp => resetWith_inv hp, resetWith_inv (by decide)⟩

/-! ### Who writes each register -/

/-- Settles O43, by the cases of a step: a reset may write every register, a store the one it names, a
command those of its effect, and nothing else writes any. -/
theorem registersAreWrittenOnlyByTheirWriters : Obligations.RegistersAreWrittenOnlyByTheirWriters := by
  intro s t h
  refine ⟨step_params s t h, ?_⟩
  obtain ⟨_, rfl⟩ | ⟨hreset, _⟩ | ⟨r, _, rfl⟩ | ⟨r, v, _, hline, rfl⟩ | ⟨i, hi, he⟩ |
    ⟨cw, e, hline, _, rfl⟩ := step_cases s t h
  · simp
  · simp [hreset]
  · simp
  · cases r with
    | keyw m =>
      have hkey : ∃ m v, s.NextLine (.wr (.keyw m) v) := ⟨m, v, hline⟩
      simp [writeReg, hkey]
    | _ => simp [writeReg, hline]
  · have hcmd : ∃ cw, s.NextLine (.wr .cmd cw) := hi.imp fun _ hcw => hcw.1
    obtain ⟨e, _, rfl⟩ | ⟨rfl, _, rfl⟩ | ⟨hblock, _, ab, rfl⟩ := exec_cases i _ t he
    · simp [hcmd]
    · simp [hcmd, hi]
    · have hstart : s.NextCommand .enc ∨ s.NextCommand .dec := by
        obtain rfl | rfl := hblock
        · exact .inl hi
        · exact .inr hi
      simp [hcmd, hstart]
  · have hcmd : ∃ cw, s.NextLine (.wr .cmd cw) := ⟨cw, hline⟩
    simp [hcmd]

/-! ### Arithmetic on words -/

/-- Settles O47: a word's arithmetic is that of the naturals, and of the integers, modulo `2^32`. -/
theorem additionAndSubtractionWrap : Obligations.AdditionAndSubtractionWrap := by
  intro x y z
  refine ⟨BitVec.toNat_add x y, ?_, by decide, BitVec.add_assoc x y z, BitVec.add_comm x y⟩
  have hx := x.isLt
  have hy := y.isLt
  rw [sub32, BitVec.toNat_sub]
  omega

/-- A rotation by a multiple of 32 is the identity (R13). -/
theorem rot_of_mod_eq_zero (x : Word) {n : Nat} (hn : n % 32 = 0) : rotl32 x n = x ∧ rotr32 x n = x :=
  ⟨if_pos hn, if_pos hn⟩

theorem rotl32_of_mod_ne_zero (x : Word) {n : Nat} (hn : n % 32 ≠ 0) :
    rotl32 x n = (x <<< (n % 32)) ||| (x >>> (32 - n % 32)) := if_neg hn

theorem rotr32_of_mod_ne_zero (x : Word) {n : Nat} (hn : n % 32 ≠ 0) :
    rotr32 x n = (x >>> (n % 32)) ||| (x <<< (32 - n % 32)) := if_neg hn

theorem toNat_rotl32 (x : Word) {n : Nat} (hn : n % 32 ≠ 0) :
    (rotl32 x n).toNat = (x.toNat * 2 ^ (n % 32)) % 2 ^ 32 ||| x.toNat / 2 ^ (32 - n % 32) := by
  rw [rotl32_of_mod_ne_zero x hn, BitVec.toNat_or, BitVec.toNat_shiftLeft, BitVec.toNat_ushiftRight,
    Nat.shiftLeft_eq, Nat.shiftRight_eq_div_pow]

theorem toNat_rotr32 (x : Word) {n : Nat} (hn : n % 32 ≠ 0) :
    (rotr32 x n).toNat = x.toNat / 2 ^ (n % 32) ||| (x.toNat * 2 ^ (32 - n % 32)) % 2 ^ 32 := by
  rw [rotr32_of_mod_ne_zero x hn, BitVec.toNat_or, BitVec.toNat_shiftLeft, BitVec.toNat_ushiftRight,
    Nat.shiftLeft_eq, Nat.shiftRight_eq_div_pow]

@[simp] theorem rotl32_mod (x : Word) (n : Nat) : rotl32 x (n % 32) = rotl32 x n := by
  simp only [rotl32, Nat.mod_mod]

@[simp] theorem rotr32_mod (x : Word) (n : Nat) : rotr32 x (n % 32) = rotr32 x n := by
  simp only [rotr32, Nat.mod_mod]

/-- A rotation left is the rotation right by the rest of the word (R13). -/
theorem rotl32_eq_rotr32 (x : Word) (n : Nat) : rotl32 x n = rotr32 x (32 - n % 32) := by
  by_cases hn : n % 32 = 0
  · rw [(rot_of_mod_eq_zero x hn).1, hn]
    exact (rot_of_mod_eq_zero x (by decide)).2.symm
  · have hm : (32 - n % 32) % 32 = 32 - n % 32 := by omega
    have hback : 32 - (32 - n % 32) = n % 32 := by omega
    rw [rotl32_of_mod_ne_zero x hn, rotr32_of_mod_ne_zero x (by omega), hm, hback, BitVec.or_comm]

/-- Settles O48: R13's expressions when the amount is no multiple of 32, and the laws above. -/
theorem rotationLaws : Obligations.RotationLaws := fun x n =>
  ⟨rot_of_mod_eq_zero x, fun hn => ⟨toNat_rotl32 x hn, toNat_rotr32 x hn⟩,
    rotr32_rotl32 x n, rotl32_rotr32 x n, (rotl32_mod x n).symm, (rotr32_mod x n).symm,
    rotl32_eq_rotr32 x n⟩

/-! ### Words and bytes -/

/-- A byte put below a word's bits adds to `2^8` times the word. -/
theorem toNat_append_byte {n : Nat} (x : BitVec n) (b : Byte) :
    (x ++ b).toNat = 2 ^ 8 * x.toNat + b.toNat := by
  rw [BitVec.toNat_append, ← Nat.shiftLeft_add_eq_or_of_lt b.isLt, Nat.shiftLeft_eq, Nat.mul_comm]

theorem toNat_le32 (b0 b1 b2 b3 : Byte) :
    (le32 b0 b1 b2 b3).toNat =
      b0.toNat + 2 ^ 8 * b1.toNat + 2 ^ 16 * b2.toNat + 2 ^ 24 * b3.toNat := by
  rw [le32, toNat_append_byte, toNat_append_byte, toNat_append_byte]
  omega

theorem toNat_byte (w : Word) (k : Nat) : (byte w k).toNat = w.toNat / 2 ^ (8 * k) % 2 ^ 8 := by
  rw [byte, BitVec.extractLsb'_toNat, Nat.shiftRight_eq_div_pow]

/-- Settles O49: the two values on naturals, and `le32_byte` for the way back. -/
theorem wordsAreLittleEndian : Obligations.WordsAreLittleEndian :=
  ⟨toNat_le32, fun w k _ => toNat_byte w k, le32_byte⟩

end Sys2Proof.Machine

/-! SUPPORT. Proofs of the statements of 10_state.md: reset, the status word, who changes the context, and what
the host can see of the key and of the table. -/

namespace Sys2Proof.Machine

open Sys2Proof.Spec

/-! ### What a step does, by its next event -/

theorem step_of_arrivals_nil {s : State} (h : s.arrivals = []) : step s = .next s := by
  simp [step, h]

/-- The state that a step hands to the next event's effect is `popped`. -/
theorem popped_eq {s : State} {e : HostEvent} {rest : List HostEvent} (h : s.arrivals = e :: rest) :
    s.popped = { s with arrivals := rest } := by
  simp [State.popped, h]

theorem step_of_nextReset {s : State} (h : s.NextReset) : step s = .next (resetCore s.popped) := by
  obtain ⟨rest, ha⟩ := h
  simp [step, ha, handleEvent, popped_eq ha]

theorem step_of_nextLine {s : State} {l : HostLine} (h : s.NextLine l) : step s = execLine l s.popped := by
  obtain ⟨a, rest, ha, hd⟩ := h
  rw [step_access s a rest l ha hd, popped_eq ha]

theorem step_of_nextCommand {s : State} {i : Instr} (h : s.NextCommand i) : step s = exec i s.popped := by
  obtain ⟨cw, hline, hcw⟩ := h
  simp [step_of_nextLine hline, execLine, hostWrite, commandWrite, hcw]

/-- A word written to `CMD` that the decoder rejects raises code 5 (R55). -/
theorem step_of_illegalWord {s : State} {cw : Word} {e : DecodeError} (h : s.NextLine (.wr .cmd cw))
    (he : decode cw = .error e) : step s = .next (raiseError .illegalCommand s.popped) := by
  simp [step_of_nextLine h, execLine, hostWrite, commandWrite, he]

/-- A write to any register but `CMD` is a store (R95, R97). -/
theorem hostWrite_of_ne_cmd {r : Reg} (hr : r ≠ .cmd) (v : Word) (s : State) :
    hostWrite r v s = .next (writeReg r v s) := by
  cases r with
  | cmd => exact absurd rfl hr
  | _ => rfl

/-- The next command is one that an event in the arrival order starts. -/
theorem starts_of_nextCommand {s : State} {i : Instr} (h : s.NextCommand i) :
    ∃ e rest, s.arrivals = e :: rest ∧ Starts s.params i e := by
  obtain ⟨cw, ⟨a, rest, ha, hd⟩, hcw⟩ := h
  exact ⟨.access a, rest, ha, a, cw, rfl, hd, hcw⟩

/-- What holds of every event still to arrive holds of every one after a step. -/
theorem step_keeps_forall_arrivals {P : Params → HostEvent → Prop} {s t : State} (hs : step s = .next t)
    (h : ∀ e ∈ s.arrivals, P s.params e) : ∀ e ∈ t.arrivals, P t.params e := by
  rw [step_arrivals s t hs, step_params s t hs]
  exact fun e he => h e (List.mem_of_mem_tail he)

/-- A run that goes on is a step that goes on and the rest of the run. -/
theorem next_of_runFor_succ {n : Nat} {s t : State} (h : runFor (n + 1) s = .next t) :
    ∃ m, step s = .next m ∧ runFor n m = .next t := by
  rw [runFor] at h
  split at h
  · next m hm => exact ⟨m, hm, h⟩
  · cases h
  · cases h

/-- The host sees nothing at the end of a run that stops at its first step. -/
theorem observed_runFor_succ_of_stop (n : Nat) {s : State} (h : ∀ t, step s ≠ .next t) :
    observed (runFor (n + 1) s) = none := by
  rw [runFor]
  split
  · next t ht => exact absurd ht (h t)
  · rfl
  · rfl

/-! ### Two states that differ in the key and the table alone: each operation keeps them so -/

section Operations

variable {s u : State} (h : SameButSecrets s u)
include h

theorem sameButSecrets_symm : SameButSecrets u s :=
  ⟨h.params.symm, h.valid.symm, h.blka.symm, h.blkb.symm, h.rounds.symm, h.keylen.symm, h.err.symm,
    h.arrivals.symm, h.replies.symm⟩

theorem nextReset_same (hs : s.NextReset) : u.NextReset :=
  hs.imp fun _ ha => h.arrivals.trans ha

theorem nextLine_same {l : HostLine} (hs : s.NextLine l) : u.NextLine l := by
  obtain ⟨a, rest, ha, hd⟩ := hs
  exact ⟨a, rest, h.arrivals.trans ha, h.params ▸ hd⟩

theorem nextCommand_same {i : Instr} (hs : s.NextCommand i) : u.NextCommand i :=
  hs.imp fun _ hcw => ⟨nextLine_same h hcw.1, hcw.2⟩

theorem popped_same : SameButSecrets s.popped u.popped :=
  ⟨h.params, h.valid, h.blka, h.blkb, h.rounds, h.keylen, h.err, congrArg List.tail h.arrivals, h.replies⟩

theorem raiseError_same (e : ErrorCode) : SameButSecrets (raiseError e s) (raiseError e u) :=
  ⟨h.params, h.valid, h.blka, h.blkb, h.rounds, h.keylen, rfl, h.arrivals, h.replies⟩

theorem succeed_same : SameButSecrets (succeed s) (succeed u) :=
  ⟨h.params, h.valid, h.blka, h.blkb, h.rounds, h.keylen, rfl, h.arrivals, h.replies⟩

/-- Any two contexts may be committed: the slot is then valid in both. -/
theorem commitContext_same (c d : Context) : SameButSecrets (commitContext c s) (commitContext d u) :=
  ⟨h.params, rfl, h.blka, h.blkb, h.rounds, h.keylen, h.err, h.arrivals, h.replies⟩

theorem clearKey_same : SameButSecrets (clearKey s) (clearKey u) :=
  ⟨h.params, h.valid, h.blka, h.blkb, h.rounds, rfl, h.err, h.arrivals, h.replies⟩

theorem reply_same {v w : Word} (hw : w = v) : SameButSecrets (reply v s) (reply w u) :=
  ⟨h.params, h.valid, h.blka, h.blkb, h.rounds, h.keylen, h.err, h.arrivals,
    congrArg₂ List.cons hw h.replies⟩

theorem resetCore_same : SameButSecrets (resetCore s) (resetCore u) :=
  ⟨h.params, rfl, rfl, rfl, rfl, rfl, rfl, h.arrivals, h.replies⟩

theorem writeReg_same (r : Reg) (v : Word) : SameButSecrets (writeReg r v s) (writeReg r v u) where
  params := by simpa using h.params
  valid := by simpa using h.valid
  blka := by simp only [writeReg_blka, h.blka]
  blkb := by simp only [writeReg_blkb, h.blkb]
  rounds := by simp only [writeReg_rounds, h.rounds]
  keylen := by simp only [writeReg_keylen, h.keylen]
  err := by simpa using h.err
  arrivals := by simpa using h.arrivals
  replies := by simpa using h.replies

theorem statusWord_same : statusWord u = statusWord s := by
  simp only [statusWord, validBit, h.err, h.valid]

/-- No register that the host can read holds anything of the key or of the table (R20, R24, R98). -/
theorem readReg_same (r : Reg) : readReg r u = readReg r s := by
  cases r with
  | cmd => rfl
  | status => exact statusWord_same h
  | rounds => exact h.rounds
  | keylen => exact h.keylen
  | blka => exact h.blka
  | blkb => exact h.blkb
  | keyw m => rfl

/-- The checks of `SETUP` look at its operand registers and the capacities alone (R65, R66, R67). -/
theorem setupError_same : setupError u = setupError s := by
  simp only [setupError, h.rounds, h.keylen, h.params]

/-- `SETUP` fails in both alike, or fills the slot in both. -/
theorem execSetup_same {t : State} (ht : execSetup s = .next t) :
    ∃ v, execSetup u = .next v ∧ SameButSecrets t v := by
  have hu := setupError_same h
  obtain ⟨e, he, rfl⟩ | ⟨hok, rfl⟩ := execSetup_cases s t ht
  · exact ⟨raiseError e u, by simp [execSetup, hu, he], raiseError_same h e⟩
  · exact ⟨succeed (clearKey (commitContext (setupContext u) u)), by simp [execSetup, hu, hok],
      succeed_same (clearKey_same (commitContext_same h _ _))⟩

end Operations

/-! ### What the host can see of the key and of the table -/

/-- Settles O51, by the cases of a step: each decides what it does, and what it returns, from what the two
states share. -/
theorem stepKeepsTheSecretsUnseen : Obligations.StepKeepsTheSecretsUnseen := by
  intro s u t h hblock ht
  have hp : SameButSecrets s.popped u.popped := popped_same h
  obtain ⟨hnil, rfl⟩ | ⟨hreset, rfl⟩ | ⟨r, hline, rfl⟩ | ⟨r, v, hr, hline, rfl⟩ | ⟨i, hi, he⟩ |
    ⟨cw, e, hline, he, rfl⟩ := step_cases s t ht
  · exact ⟨u, step_of_arrivals_nil (h.arrivals.trans hnil), h⟩
  · exact ⟨_, step_of_nextReset (nextReset_same h hreset), resetCore_same hp⟩
  · exact ⟨_, step_of_nextLine (nextLine_same h hline), reply_same hp (readReg_same hp r)⟩
  · exact ⟨_, (step_of_nextLine (nextLine_same h hline)).trans (hostWrite_of_ne_cmd hr v _),
      writeReg_same hp r v⟩
  · obtain ⟨ev, rest, hev, hstart⟩ := starts_of_nextCommand hi
    rw [step_of_nextCommand (nextCommand_same h hi)]
    cases i with
    | setup => exact execSetup_same hp he
    | enc => exact absurd hstart (hblock ev rest hev).1
    | dec => exact absurd hstart (hblock ev rest hev).2
  · exact ⟨_, step_of_illegalWord (nextLine_same h hline) he, raiseError_same hp _⟩

/-- Settles O44, by induction over the run: a step that goes on in one state goes on in the other (O51, which
serves both ways), and so both stop together. -/
theorem keyAndTableCannotBeReadOut : Obligations.KeyAndTableCannotBeReadOut := by
  intro n
  induction n with
  | zero => exact fun s u h _ => congrArg some h.replies
  | succ n ih =>
    intro s u h hev
    have hnext : ∀ e rest, s.arrivals = e :: rest → ¬ Starts s.params .enc e ∧ ¬ Starts s.params .dec e :=
      fun e rest ha => hev e (ha ▸ List.mem_cons_self)
    by_cases hs : ∃ t, step s = .next t
    · obtain ⟨t, ht⟩ := hs
      obtain ⟨v, hv, htv⟩ := stepKeepsTheSecretsUnseen s u t h hnext ht
      rw [runFor_succ_of_next n s t ht, runFor_succ_of_next n u v hv]
      exact ih t v htv (step_keeps_forall_arrivals
        (P := fun p e => ¬ Starts p .enc e ∧ ¬ Starts p .dec e) ht hev)
    · have hu : ∀ v, step u ≠ .next v := by
        intro v hv
        rw [← h.arrivals, ← h.params] at hnext
        obtain ⟨t, ht, _⟩ := stepKeepsTheSecretsUnseen u s v (sameButSecrets_symm h) hnext hv
        exact hs ⟨t, ht⟩
      rw [observed_runFor_succ_of_stop n (not_exists.mp hs), observed_runFor_succ_of_stop n hu]

/-! ### The status word -/

/-- The fields of the status word, each at its place (R26). -/
theorem statusWord_fields (s : State) :
    (statusWord s).getLsbD 0 = s.ctx.isSome ∧ (statusWord s).extractLsb' 8 4 = s.err ∧
    (statusWord s).extractLsb' 1 7 = 0 ∧ (statusWord s).extractLsb' 12 20 = 0 := by
  unfold statusWord validBit
  generalize s.err = err
  generalize s.ctx.isSome = valid
  revert err valid
  decide

/-- Settles O33: the read returns the status word. -/
theorem statusWordFields : Obligations.StatusWordFields := fun s rest h =>
  ⟨statusWord s, step_line s (.rd .status) rest rfl h, statusWord_fields s⟩

/-! ### Who changes the context -/

/-- Settles O41, by the cases of a step: no operation but a reset and a commit changes the slot. -/
theorem contextChangesOnlyBySetupOrReset : Obligations.ContextChangesOnlyBySetupOrReset := by
  intro s t ht hne
  obtain ⟨_, rfl⟩ | ⟨hreset, rfl⟩ | ⟨r, _, rfl⟩ | ⟨r, v, _, _, rfl⟩ | ⟨i, hi, he⟩ | ⟨cw, e, _, _, rfl⟩ :=
    step_cases s t ht
  · exact absurd rfl hne
  · exact .inr ⟨hreset, rfl⟩
  · exact absurd rfl hne
  · exact absurd (writeReg_ctx r v s.popped) hne
  · obtain ⟨e, _, rfl⟩ | ⟨rfl, _, rfl⟩ | ⟨_, _, ab, rfl⟩ := exec_cases i s.popped t he
    · exact absurd rfl hne
    · exact .inl ⟨hi, rfl, rfl⟩
    · exact absurd rfl hne
  · exact absurd rfl hne

/-- A step that neither resets the core nor starts `SETUP` keeps the context. -/
theorem step_keeps_ctx {s t : State} (hs : step s = .next t)
    (h : ∀ e ∈ s.arrivals, e ≠ .reset ∧ ¬ Starts s.params .setup e) : t.ctx = s.ctx := by
  by_contra hne
  obtain ⟨hsetup, _⟩ | ⟨⟨rest, ha⟩, _⟩ := contextChangesOnlyBySetupOrReset s t hs hne
  · obtain ⟨e, rest, ha, hstart⟩ := starts_of_nextCommand hsetup
    exact (h e (ha ▸ List.mem_cons_self)).2 hstart
  · exact (h .reset (ha ▸ List.mem_cons_self)).1 rfl

/-- Settles O42, by induction over the run. -/
theorem contextIsSharedByAllBlocks : Obligations.ContextIsSharedByAllBlocks := by
  intro n
  induction n with
  | zero => rintro s t _ ⟨⟩; rfl
  | succ n ih =>
    intro s t hev ht
    obtain ⟨m, hm, hrest⟩ := next_of_runFor_succ ht
    have hev' : ∀ e ∈ m.arrivals, e ≠ .reset ∧ ¬ Starts m.params .setup e :=
      step_keeps_forall_arrivals (P := fun p e => e ≠ .reset ∧ ¬ Starts p .setup e) hm hev
    exact (ih m t hev' hrest).trans (step_keeps_ctx hm hev)

/-! ### Reset -/

/-- The status word does not look at the parameters, so that one reset state stands for all (R33). -/
theorem statusWord_resetWith (p : Params) : statusWord (State.resetWith p) = 0 := by
  change statusWord State.reset = 0
  decide

/-- Settles O1: R33's table is the definition of the reset state, and its status word is zero. -/
theorem resetLeavesSlotEmptyAndRegistersZero : Obligations.ResetLeavesSlotEmptyAndRegistersZero := by
  intro p
  have hkeyw : ∀ m, m < p.cMax → (State.resetWith p).keyw[m]? = some 0 := fun m hm => by simp [hm]
  exact ⟨rfl, rfl, rfl, rfl, rfl, List.length_replicate, hkeyw, rfl,
    statusWord_resetWith p, rfl⟩

/-- Settles O38: `resetCore` is R33's state with the model's own two lists kept. -/
theorem resetEventGivesTheResetState : Obligations.ResetEventGivesTheResetState := by
  intro s rest h
  rw [step_of_nextReset ⟨rest, h⟩, popped_eq h, resetCore]

end Sys2Proof.Machine

/-! SUPPORT. Proofs of the statements of 20_memory.md: the encodings, which accesses a step accepts and which it
refuses, the order of the bytes, the ranges of the indices, and runs of accepted events. -/

namespace Sys2Proof.Machine

/-! ### Which accesses carry a line -/

theorem decodeAccess_encodeLine {p : Params} {l : HostLine} (h : l.wf p = true) :
    decodeAccess p (encodeLine p l) = .ok l := by
  cases l with
  | rd r => exact decodeAccess_rd32 p r h
  | wr r v => exact decodeAccess_wr32 p r v h

/-- Only the access of a well-formed line carries that line (R37, R94). -/
theorem eq_encodeLine_of_decodeAccess {p : Params} {a : BusAccess} {l : HostLine}
    (h : decodeAccess p a = .ok l) : l.wf p = true ∧ a = encodeLine p l := by
  cases a with
  | rd32 addr =>
    simp only [decodeAccess] at h
    split at h
    · next r hr =>
      cases h
      obtain ⟨hw, rfl⟩ := address_of_decodeAddress p addr r hr
      exact ⟨hw, rfl⟩
    · cases h
  | wr32 addr v =>
    simp only [decodeAccess] at h
    split at h
    · next r hr =>
      cases h
      obtain ⟨hw, rfl⟩ := address_of_decodeAddress p addr r hr
      exact ⟨hw, rfl⟩
    · cases h
  | otherWidth kind width addr => cases h

/-- Settles O5: the command words by `decode_eq_ok_iff`, the accesses by the two lemmas above. -/
theorem decodeAndEncodeAgree : Obligations.DecodeAndEncodeAgree :=
  ⟨fun i _ => (decode_eq_ok_iff _ i).mpr rfl, fun cw i => (decode_eq_ok_iff cw i).mp,
    fun _ _ => decodeAccess_encodeLine, fun _ _ _ => eq_encodeLine_of_decodeAccess⟩

/-! ### Which accesses carry no line -/

@[simp] theorem decodeAddress_base_add (p : Params) (off : Nat) :
    decodeAddress p (p.base + off) = decodeOffset p off := by
  simp [decodeAddress]

theorem decodeOffset_of_misaligned (p : Params) {off : Nat} (h : off % 4 ≠ 0) :
    decodeOffset p off = .error .misaligned := if_pos h

/-- The offsets that R37 marks reserved: above the registers and below the key buffer, or above it (R42). -/
theorem decodeOffset_of_reserved {p : Params} {off : Nat} (h4 : off % 4 = 0) (hlow : 0x018 ≤ off)
    (hkey : off < 0x100 ∨ 0x100 + 4 * p.cMax ≤ off) : decodeOffset p off = .error .reservedOffset := by
  rw [decodeOffset, if_neg (by omega), if_neg (by omega), if_neg (by omega), if_neg (by omega),
    if_neg (by omega), if_neg (by omega), if_neg (by omega), if_neg (by omega)]

/-- A 32-bit access is not accepted for the reason that its address is not. -/
theorem decodeAccess_eq_error {p : Params} {a : BusAccess} {addr : Nat} {v : Word} {why : AccessError}
    (ha : a = .rd32 addr ∨ a = .wr32 addr v) (h : decodeAddress p addr = .error why) :
    decodeAccess p a = .error why := by
  obtain rfl | rfl := ha <;> simp [decodeAccess, h]

/-! ### When a step stops -/

/-- A step whose next event is an access that carries no line is refused (R99). -/
theorem step_of_decodeAccess_error {s : State} {a : BusAccess} {rest : List HostEvent} {why : AccessError}
    (ha : s.arrivals = .access a :: rest) (hd : decodeAccess s.params a = .error why) :
    step s = .refused (.accessNotAccepted why) := by
  simp [step, ha, handleEvent, hd]

theorem commandWrite_next (cw : Word) (s : State) : ∃ t, commandWrite cw s = .next t := by
  unfold commandWrite
  split
  · exact exec_next _ s
  · exact ⟨_, rfl⟩

/-- Every host line completes (R111). -/
theorem execLine_next (l : HostLine) (s : State) : ∃ t, execLine l s = .next t := by
  cases l with
  | rd r => exact ⟨_, rfl⟩
  | wr r v =>
    by_cases hr : r = .cmd
    · subst hr
      exact commandWrite_next v s
    · exact ⟨_, hostWrite_of_ne_cmd hr v s⟩

/-- A step goes on, or its next event is an access that the interface does not accept. -/
theorem step_next_or_decodeAccess_error (s : State) :
    (∃ t, step s = .next t) ∨
    ∃ a rest why, s.arrivals = .access a :: rest ∧ decodeAccess s.params a = .error why := by
  cases ha : s.arrivals with
  | nil => exact .inl ⟨s, step_of_arrivals_nil ha⟩
  | cons e rest =>
    cases e with
    | reset => exact .inl ⟨_, step_of_nextReset ⟨rest, ha⟩⟩
    | access a =>
      cases hd : decodeAccess s.params a with
      | error why => exact .inr ⟨a, rest, why, rfl, hd⟩
      | ok l =>
        rw [step_of_nextLine ⟨a, rest, ha, hd⟩]
        exact .inl (execLine_next l _)

/-- A step goes on exactly when its next event, if any, is accepted. -/
theorem step_next_iff (s : State) :
    (∃ t, step s = .next t) ↔ ∀ e rest, s.arrivals = e :: rest → Accepted s.params e := by
  constructor
  · rintro ⟨t, ht⟩ e rest ha
    cases e with
    | reset => trivial
    | access a =>
      cases hd : decodeAccess s.params a with
      | ok l => exact ⟨l, hd⟩
      | error why =>
        rw [step_of_decodeAccess_error ha hd] at ht
        cases ht
  · intro hacc
    obtain hnext | ⟨a, rest, why, ha, hd⟩ := step_next_or_decodeAccess_error s
    · exact hnext
    · obtain ⟨l, hl⟩ := hacc _ rest ha
      rw [hd] at hl
      cases hl

/-- Settles O12: a step that does not go on is the refusal of an access. -/
theorem stepStopsOnlyOnUnacceptedAccess : Obligations.StepStopsOnlyOnUnacceptedAccess := by
  intro s
  refine ⟨step_next_iff s, (fun f => nomatch f), fun r hr => ?_⟩
  obtain ⟨t, ht⟩ | ⟨a, rest, why, ha, hd⟩ := step_next_or_decodeAccess_error s
  · rw [ht] at hr
    cases hr
  · rw [step_of_decodeAccess_error ha hd] at hr
    cases hr
    exact ⟨a, rest, why, ha, hd, rfl⟩

/-- Settles O36, by what the register map says of each offset. -/
theorem unacceptedAccessesAreRefused : Obligations.UnacceptedAccessesAreRefused := by
  intro s rest off v a ha
  refine ⟨?_, fun h32 => ⟨fun h4 => ?_, fun h4 hlow hkey => ?_⟩⟩
  · rintro ⟨kind, width, addr, rfl⟩
    exact step_of_decodeAccess_error ha rfl
  · refine step_of_decodeAccess_error ha (decodeAccess_eq_error h32 ?_)
    rw [decodeAddress_base_add, decodeOffset_of_misaligned _ h4]
  · refine step_of_decodeAccess_error ha (decodeAccess_eq_error h32 ?_)
    rw [decodeAddress_base_add, decodeOffset_of_reserved h4 hlow hkey]

/-! ### Runs of accepted events -/

/-- A run over accepted events goes on, keeps the invariant and takes one event off at each step. -/
theorem runFor_of_accepted (n : Nat) {s : State} (hs : s.Inv) (hacc : ∀ e ∈ s.arrivals, Accepted s.params e) :
    ∃ t, runFor n s = .next t ∧ t.Inv ∧ t.arrivals = s.arrivals.drop n := by
  induction n generalizing s with
  | zero => exact ⟨s, rfl, hs, rfl⟩
  | succ n ih =>
    obtain ⟨m, hm⟩ := (step_next_iff s).mpr fun e rest ha => hacc e (ha ▸ List.mem_cons_self)
    obtain ⟨t, ht, hinv, hdrop⟩ := ih (stepKeepsInvariant s m hs hm) (step_keeps_forall_arrivals hm hacc)
    refine ⟨t, (runFor_succ_of_next n s m hm).trans ht, hinv, ?_⟩
    rw [hdrop, step_arrivals s m hm, List.drop_tail]

/-- Settles O11: a run of any length by `runFor_of_accepted`, and one as long as the list of events drops
them all. -/
theorem acceptedEventsRunSafely : Obligations.AcceptedEventsRunSafely := by
  intro s hs hacc
  constructor
  · intro n
    obtain ⟨t, ht, hinv, _⟩ := runFor_of_accepted n hs hacc
    exact ⟨t, ht, hinv⟩
  · obtain ⟨t, ht, _, hdrop⟩ := runFor_of_accepted s.arrivals.length hs hacc
    exact ⟨t, ht, hdrop.trans List.drop_length⟩

/-! ### What each command answers, by the branch it takes -/

theorem execSetup_of_error {s : State} {e : ErrorCode} (h : setupError s = some e) :
    execSetup s = .next (raiseError e s) := by
  simp [execSetup, h]

theorem execSetup_of_ok {s : State} (h : setupError s = none) :
    execSetup s = .next (succeed (clearKey (commitContext (setupContext s) s))) := by
  simp [execSetup, h]

theorem execEnc_of_none {s : State} (h : s.ctx = none) : execEnc s = .next (raiseError .noContext s) := by
  simp [execEnc, h]

theorem execEnc_of_some {s : State} {c : Context} (h : s.ctx = some c) :
    execEnc s = .next (succeed (writeBlock (encBlock c (block s)) s)) := by
  simp [execEnc, h]

theorem execDec_of_none {s : State} (h : s.ctx = none) : execDec s = .next (raiseError .noContext s) := by
  simp [execDec, h]

theorem execDec_of_some {s : State} {c : Context} (h : s.ctx = some c) :
    execDec s = .next (succeed (writeBlock (decBlock c (block s)) s)) := by
  simp [execDec, h]

/-! ### A step does not look at later events -/

/-- `s` with another list of events still to arrive. -/
def State.withArrivals (s : State) (q : List HostEvent) : State := { s with arrivals := q }

/-- A command neither looks at the events still to arrive nor changes them. -/
theorem exec_withArrivals {i : Instr} {s t : State} (h : exec i s = .next t) (q : List HostEvent) :
    exec i (s.withArrivals q) = .next (t.withArrivals q) := by
  cases i with
  | setup =>
    obtain ⟨e, he, rfl⟩ | ⟨hok, rfl⟩ := execSetup_cases s t h
    · exact execSetup_of_error he
    · exact execSetup_of_ok hok
  | enc =>
    obtain ⟨hc, rfl⟩ | ⟨c, hc, rfl⟩ := execEnc_cases s t h
    · exact execEnc_of_none hc
    · exact execEnc_of_some hc
  | dec =>
    obtain ⟨hc, rfl⟩ | ⟨c, hc, rfl⟩ := execDec_cases s t h
    · exact execDec_of_none hc
    · exact execDec_of_some hc

/-- A store neither looks at the events still to arrive nor changes them. -/
theorem writeReg_withArrivals (r : Reg) (v : Word) (s : State) (q : List HostEvent) :
    writeReg r v (s.withArrivals q) = (writeReg r v s).withArrivals q := by
  cases r <;> rfl

theorem readReg_withArrivals (r : Reg) (s : State) (q : List HostEvent) :
    readReg r (s.withArrivals q) = readReg r s := by
  cases r <;> rfl

theorem popped_withArrivals_cons (s : State) (e : HostEvent) (q : List HostEvent) :
    (s.withArrivals (e :: q)).popped = s.withArrivals q := rfl

section SameHead

variable {s : State} {e : HostEvent} {rest : List HostEvent} (other : List HostEvent)

theorem nextReset_of_same_head (h : (s.withArrivals (e :: rest)).NextReset) :
    (s.withArrivals (e :: other)).NextReset := by
  obtain ⟨_, ha⟩ := h
  cases ha
  exact ⟨other, rfl⟩

theorem nextLine_of_same_head {l : HostLine} (h : (s.withArrivals (e :: rest)).NextLine l) :
    (s.withArrivals (e :: other)).NextLine l := by
  obtain ⟨a, _, ha, hd⟩ := h
  cases ha
  exact ⟨a, other, rfl, hd⟩

theorem nextCommand_of_same_head {i : Instr} (h : (s.withArrivals (e :: rest)).NextCommand i) :
    (s.withArrivals (e :: other)).NextCommand i :=
  h.imp fun _ hcw => ⟨nextLine_of_same_head other hcw.1, hcw.2⟩

/-- With other events after the same head a step does the same, by the cases of a step. -/
theorem step_of_same_head {t : State} (h : step (s.withArrivals (e :: rest)) = .next t) :
    step (s.withArrivals (e :: other)) = .next (t.withArrivals other) := by
  obtain ⟨hnil, _⟩ | ⟨hreset, rfl⟩ | ⟨r, hline, rfl⟩ | ⟨r, v, hr, hline, rfl⟩ | ⟨i, hi, he⟩ |
    ⟨cw, err, hline, herr, rfl⟩ := step_cases _ t h
  · cases hnil
  · exact step_of_nextReset (nextReset_of_same_head other hreset)
  · rw [step_of_nextLine (nextLine_of_same_head other hline)]
    simp only [execLine, hostRead, popped_withArrivals_cons, readReg_withArrivals]
    rfl
  · rw [step_of_nextLine (nextLine_of_same_head other hline), execLine, hostWrite_of_ne_cmd hr]
    simp only [popped_withArrivals_cons, writeReg_withArrivals]
    rfl
  · rw [step_of_nextCommand (nextCommand_of_same_head other hi)]
    exact exec_withArrivals he other
  · exact step_of_illegalWord (nextLine_of_same_head other hline) herr

end SameHead

/-- Settles O10: a step takes its event off (`step_arrivals`) and looks at no other (`step_of_same_head`). -/
theorem laterEventsDoNotInfluenceAStep : Obligations.LaterEventsDoNotInfluenceAStep :=
  fun _ t _ _ other h => ⟨step_arrivals _ t h, step_of_same_head other h⟩

/-! ### A step that starts a command -/

/-- The command word that `withFetchWord` places is the next event. -/
theorem nextCommand_withFetchWord (s : State) (i : Instr) :
    (s.withFetchWord 32 (encode i).toNat).NextCommand i := by
  have hword : BitVec.ofNat 32 ((encode i).toNat % 2 ^ 32) = encode i := by
    rw [Nat.mod_eq_of_lt (encode i).isLt, BitVec.ofNat_toNat, BitVec.setWidth_eq]
  refine ⟨encode i, ⟨_, s.arrivals, rfl, ?_⟩, (decode_eq_ok_iff _ i).mpr rfl⟩
  rw [hword]
  exact decodeAccess_wr32 s.params .cmd (encode i) rfl

/-- Settles O7, by `step_of_nextCommand`: taking the placed word off gives the state back. -/
theorem stepRunsTheDecodedCommand : Obligations.StepRunsTheDecodedCommand := by
  refine ⟨fun s a rest cw i ha hd hcw => ?_, fun s i => ?_⟩
  · rw [step_of_nextCommand ⟨cw, ⟨a, rest, ha, hd⟩, hcw⟩, popped_eq ha]
  · exact step_of_nextCommand (nextCommand_withFetchWord s i)

/-! ### The ranges of the indices -/

/-- Settles O17: the indices of `mix` are remainders, and the lengths are those of the invariant. -/
theorem commandIndicesStayInRange : Obligations.CommandIndicesStayInRange := by
  refine ⟨fun S L t c n ht hc hS hL => ?_, fun s hs hok k hk => ?_, fun p c hc => ?_⟩
  · obtain ⟨hi, hj⟩ := mixIter_start_indices t c n S L
    rw [mixIter_S_length, mixIter_L_length, hi, hj]
    simp only [mixStart, hS, hL]
    exact ⟨Nat.mod_lt n ht, Nat.mod_lt n hc⟩
  · have hlen : s.keyw.length = (s.params.bMax + 3) / 4 := hs.keyw_length
    have hle := hok.keylen_le
    omega
  · have hlen := hc.table_length
    exact ⟨by omega, fun r _ hr => by omega, by omega⟩

/-! ### The order of the bytes -/

theorem offset_mod_four (r : Reg) : r.offset % 4 = 0 := by
  cases r with
  | keyw m => simp only [Reg.offset]; omega
  | _ => rfl

/-- Byte `k` of a register lies `k` above the register's address (R40). -/
theorem heldByteAt_offset {s : State} {r : Reg} {k : Nat} (hr : r.wf s.params = true) (hk : k < 4) :
    heldByteAt (s.params.base + r.offset + k) s = some (byte (heldWord r s) k) := by
  have h4 := offset_mod_four r
  have hsub : s.params.base + r.offset + k - s.params.base = r.offset + k := by omega
  have hword : (r.offset + k) / 4 * 4 = r.offset := by omega
  have hbyte : (r.offset + k) % 4 = k := by omega
  rw [heldByteAt, if_neg (by omega), hsub, hword, hbyte, decodeOffset_offset _ r hr]

/-- Settles O37: the block's bytes are those of `BLKA` and `BLKB`, key byte `k` is byte `k mod 4` of
`KEYW[k div 4]`. -/
theorem blockAndKeyBytesLieInOrder : Obligations.BlockAndKeyBytesLieInOrder := by
  intro s
  refine ⟨fun r k => heldByteAt_offset, fun k => heldByteAt_offset (r := .blka) rfl, fun k hk => ?_,
    fun k hk => ?_⟩
  · have haddr : s.params.base + 0x010 + (4 + k) = s.params.base + Reg.blkb.offset + k := by
      simp only [Reg.offset]; omega
    rw [haddr]
    exact heldByteAt_offset rfl hk
  · have haddr : s.params.base + 0x100 + k = s.params.base + (Reg.keyw (k / 4)).offset + k % 4 := by
      simp only [Reg.offset]; omega
    have hwf : (Reg.keyw (k / 4)).wf s.params = true := by simp only [Reg.wf, decide_eq_true_eq]; omega
    rw [haddr]
    exact heldByteAt_offset hwf (Nat.mod_lt k (by decide))

end Sys2Proof.Machine

/-! SUPPORT. Proofs of the statements of 30_encoding.md: the command words, what each command leaves unchanged,
and the runs of the pseudo-instructions. -/

namespace Sys2Proof.Machine

open Sys2Proof.Spec

/-! ### Command words (R52 to R59) -/

/-- Settles O6, by evaluating the decoder on the seven words. -/
theorem specCommandWordsDecodeAsListed : Obligations.SpecCommandWordsDecodeAsListed :=
  ⟨by decide, by decide, by decide, by decide, by decide, by decide, by decide⟩

/-- The decoder rejects exactly the words that encode no command (R55). -/
theorem exists_decode_eq_error_iff (cw : Word) :
    (∃ e, decode cw = .error e) ↔ ∀ i, cw ≠ encode i := by
  refine ⟨?_, decode_eq_error cw⟩
  rintro ⟨e, he⟩ i hi
  rw [(decode_eq_ok_iff cw i).mpr hi] at he
  cases he

/-- The three command words in R59's table. -/
theorem forall_ne_encode_iff (cw : Word) :
    (∀ i, cw ≠ encode i) ↔ cw ≠ 0x00000001 ∧ cw ≠ 0x00000002 ∧ cw ≠ 0x00000003 := by
  refine ⟨fun h => ⟨h .setup, h .enc, h .dec⟩, ?_⟩
  rintro ⟨hsetup, henc, hdec⟩ i
  cases i with
  | setup => exact hsetup
  | enc => exact henc
  | dec => exact hdec

/-- Settles O4: the decoder inverts the encoder, whose three words are R59's. -/
theorem exactlyThreeCommandWordsAreLegal : Obligations.ExactlyThreeCommandWordsAreLegal := fun cw =>
  ⟨decode_eq_ok_iff cw .setup, decode_eq_ok_iff cw .enc, decode_eq_ok_iff cw .dec,
    (exists_decode_eq_error_iff cw).trans (forall_ne_encode_iff cw)⟩

/-- Settles O8: the decoder rejects the word, and the step raises code 5. -/
theorem illegalCommandWordChangesOnlyErr : Obligations.IllegalCommandWordChangesOnlyErr := by
  intro s rest cw ha hsetup henc hdec
  obtain ⟨e, he⟩ := decode_eq_error cw ((forall_ne_encode_iff cw).mpr ⟨hsetup, henc, hdec⟩)
  rw [step_of_illegalWord ⟨_, rest, ha, decodeAccess_cmd s.params cw⟩ he, popped_eq ha]
  rfl

/-! ### The frames of the commands (R57) -/

theorem ErrorCode.code_ne_zero (e : ErrorCode) : e.code ≠ 0 := by
  cases e <;> decide

theorem setupError_eq_none_iff_accepts (s : State) : setupError s = none ↔ SetupAccepts s := by
  rw [setupError_eq_none_iff]
  exact ⟨fun ⟨hr, hk, hrle, hkle⟩ => ⟨hr, hk, hrle, hkle⟩,
    fun h => ⟨h.rounds_ne, h.keylen_ne, h.rounds_le, h.keylen_le⟩⟩

theorem exec_setup_of_accepts {s : State} (h : SetupAccepts s) :
    exec .setup s = .next (succeed (clearKey (commitContext (setupContext s) s))) :=
  execSetup_of_ok ((setupError_eq_none_iff_accepts s).mpr h)

/-- Settles O20: an error replaces `STATUS.ERR` by a code that is not 0; a success commits the context, clears
the key and sets `STATUS.ERR` to 0. -/
theorem setupFrame : Obligations.SetupFrame := by
  intro s t h
  rw [← setupError_eq_none_iff_accepts]
  obtain ⟨e, he, rfl⟩ | ⟨hok, rfl⟩ := execSetup_cases s t h
  · exact ⟨rfl, rfl, rfl, rfl, rfl, rfl, fun _ => rfl, iff_of_false e.code_ne_zero (by simp [he])⟩
  · exact ⟨rfl, rfl, rfl, rfl, rfl, rfl, fun herr => absurd rfl herr, iff_of_true rfl hok⟩

/-- A block command raises `NoContext` on an empty slot and changes nothing else, or writes a block back. -/
theorem exec_blockCommand_cases {i : Instr} {s t : State} (hi : i = .enc ∨ i = .dec)
    (h : exec i s = .next t) :
    (s.ctx = none ∧ t = raiseError .noContext s) ∨
    (s.ctx.isSome = true ∧ ∃ ab, t = succeed (writeBlock ab s)) := by
  obtain rfl | rfl := hi
  · exact (execEnc_cases s t h).imp_right fun ⟨c, hc, ht⟩ => ⟨by simp [hc], _, ht⟩
  · exact (execDec_cases s t h).imp_right fun ⟨c, hc, ht⟩ => ⟨by simp [hc], _, ht⟩

/-- Settles O25: an error replaces `STATUS.ERR` by code 4; a success writes the block and sets `STATUS.ERR`
to 0. -/
theorem blockCommandsFrame : Obligations.BlockCommandsFrame := by
  intro i s t hi h
  obtain ⟨hctx, rfl⟩ | ⟨hctx, ab, rfl⟩ := exec_blockCommand_cases hi h
  · exact ⟨rfl, rfl, rfl, rfl, rfl, rfl, rfl, fun _ => rfl,
      iff_of_false ErrorCode.noContext.code_ne_zero (by simp [hctx])⟩
  · exact ⟨rfl, rfl, rfl, rfl, rfl, rfl, rfl, fun herr => absurd rfl herr, iff_of_true rfl hctx⟩

/-! ### Host programs: a run of the events of a list of lines executes the lines in order (R60) -/

/-- The lines of a host program, executed in order. -/
def execLines : List HostLine → State → Host.Outcome State Fault Refusal
  | [], s => .next s
  | l :: ls, s =>
    match execLine l s with
    | .next t => execLines ls t
    | .fault f => .fault f
    | .refused r => .refused r

@[simp] theorem execLines_nil (s : State) : execLines [] s = .next s := rfl

theorem execLines_cons_of_next {l : HostLine} {s t : State} (h : execLine l s = .next t)
    (ls : List HostLine) : execLines (l :: ls) s = execLines ls t := by
  rw [execLines, h]

@[simp] theorem execLines_rd (r : Reg) (ls : List HostLine) (s : State) :
    execLines (.rd r :: ls) s = execLines ls (reply (readReg r s) s) := rfl

theorem execLines_wr {r : Reg} (hr : r ≠ .cmd) (v : Word) (ls : List HostLine) (s : State) :
    execLines (.wr r v :: ls) s = execLines ls (writeReg r v s) :=
  execLines_cons_of_next (l := .wr r v) (hostWrite_of_ne_cmd hr v s) ls

theorem execLine_cmdLine (i : Instr) (s : State) : execLine (cmdLine i) s = exec i s := by
  simp [cmdLine, execLine, hostWrite, commandWrite, (decode_eq_ok_iff _ i).mpr rfl]

theorem execLines_cmdLine {i : Instr} {s t : State} (h : exec i s = .next t) (ls : List HostLine) :
    execLines (cmdLine i :: ls) s = execLines ls t :=
  execLines_cons_of_next ((execLine_cmdLine i s).trans h) ls

theorem execLines_append_of_next {ls : List HostLine} {s t : State} (h : execLines ls s = .next t)
    (ms : List HostLine) : execLines (ls ++ ms) s = execLines ms t := by
  induction ls generalizing s with
  | nil => cases h; rfl
  | cons l ls ih =>
    obtain ⟨u, hu⟩ := execLine_next l s
    rw [execLines_cons_of_next hu] at h
    rw [List.cons_append, execLines_cons_of_next hu, ih h]

/-- The step that handles a line's event has the line's effect, whatever events come after it. -/
theorem step_withArrivals_of_execLine {l : HostLine} {s t : State} (hw : l.wf s.params = true)
    (h : execLine l s = .next t) (q : List HostEvent) :
    step (s.withArrivals (.access (encodeLine s.params l) :: q)) = .next (t.withArrivals q) := by
  have hstep := step_line (s.withArrivals (.access (encodeLine s.params l) :: s.arrivals)) l s.arrivals hw rfl
  exact step_of_same_head q (hstep.trans h)

/-- A run over the events of well-formed lines executes the lines and leaves the events after them. -/
theorem runFor_withArrivals_eventsOf {ls : List HostLine} {s t : State}
    (hw : ∀ l ∈ ls, l.wf s.params = true) (h : execLines ls s = .next t) (rest : List HostEvent) :
    runFor ls.length (s.withArrivals (eventsOf s.params ls ++ rest)) = .next (t.withArrivals rest) := by
  induction ls generalizing s with
  | nil => cases h; rfl
  | cons l ls ih =>
    obtain ⟨u, hu⟩ := execLine_next l s
    rw [execLines_cons_of_next hu] at h
    have hstep := step_withArrivals_of_execLine (hw l List.mem_cons_self) hu (eventsOf s.params ls ++ rest)
    have hp : u.params = s.params := (step_params _ _ hstep :)
    rw [← hp] at hstep hw
    rw [List.length_cons, eventsOf_cons, List.cons_append, ← hp, runFor_succ_of_next _ _ _ hstep]
    exact ih (fun m hm => hw m (List.mem_cons_of_mem l hm)) h

theorem runFor_of_arrivals_eventsOf {ls : List HostLine} {s t : State} {rest : List HostEvent}
    (ha : s.arrivals = eventsOf s.params ls ++ rest) (hw : ∀ l ∈ ls, l.wf s.params = true)
    (h : execLines ls s = .next t) : runFor ls.length s = .next (t.withArrivals rest) := by
  have hrun := runFor_withArrivals_eventsOf hw h rest
  rw [← ha] at hrun
  exact hrun

/-! ### The order of two stores -/

/-- Stores to two different registers have the same effect in either order (R95, R97). -/
theorem writeReg_comm {q r : Reg} (h : q ≠ r) (v w : Word) (s : State) :
    writeReg r w (writeReg q v s) = writeReg q v (writeReg r w s) := by
  cases q with
  | keyw m =>
    cases r with
    | keyw n =>
      have hmn : m ≠ n := fun hmn => h (congrArg Reg.keyw hmn)
      simp only [writeReg, List.set_comm v w hmn]
    | _ => rfl
  | _ => cases r <;> simp [writeReg] at h ⊢

/-- Settles O35: each order is a run of two stores, and the stores commute. -/
theorem operandWritesCommute : Obligations.OperandWritesCommute := by
  intro s q r v w rest hq hr hqc hrc hqr
  have hqw : execLines [.wr q v, .wr r w] s = .next (writeReg r w (writeReg q v s)) := by
    rw [execLines_wr hqc, execLines_wr hrc, execLines_nil]
  have hrw : execLines [.wr r w, .wr q v] s = .next (writeReg r w (writeReg q v s)) := by
    rw [execLines_wr hrc, execLines_wr hqc, execLines_nil, writeReg_comm hqr]
  exact ⟨_, runFor_withArrivals_eventsOf (by simp [HostLine.wf, hq, hr]) hqw rest,
    runFor_withArrivals_eventsOf (by simp [HostLine.wf, hq, hr]) hrw rest, rfl⟩

/-! ### The block commands as host programs (R62) -/

theorem statusWord_eq_one {s : State} (herr : s.err = 0) (hctx : s.ctx.isSome = true) :
    statusWord s = 0x00000001 := by
  rw [statusWord, validBit, herr, hctx]
  decide

/-- The status word of an empty slot after a block command (R79, R87). -/
theorem statusWord_noContext {s : State} (hctx : s.ctx = none) :
    statusWord (raiseError .noContext s) = 0x00000400 := by
  rw [statusWord, validBit, raiseError_err, raiseError_ctx, hctx]
  decide

theorem heldBlockLines_wf (i : Instr) (p : Params) : ∀ l ∈ heldBlockLines i, l.wf p = true := by
  simp [heldBlockLines, cmdLine, HostLine.wf, Reg.wf]

theorem blockLines_wf (i : Instr) (x : Vector Byte 8) (p : Params) :
    ∀ l ∈ blockLines i x, l.wf p = true := by
  intro l hl
  obtain hload | hheld := List.mem_append.mp hl
  · have hloads : ∀ l ∈ loadBlockLines x, l.wf p = true := by simp [loadBlockLines, HostLine.wf, Reg.wf]
    exact hloads l hload
  · exact heldBlockLines_wf i p l hheld

/-- After the command the host reads the status and the block that the command left. -/
theorem execLines_heldBlockLines {i : Instr} {s t : State} (h : exec i s = .next t) :
    execLines (heldBlockLines i) s =
      .next { t with replies := t.blkb :: t.blka :: statusWord t :: t.replies } := by
  rw [heldBlockLines, execLines_cmdLine h]
  rfl

/-- The command `i` replaces the block by its value under `f` when the slot holds `c`. -/
def Transforms (i : Instr) (c : Context) (f : Word × Word → Word × Word) : Prop :=
  ∀ s : State, s.ctx = some c → exec i s = .next (succeed (writeBlock (f (block s)) s))

theorem enc_transforms (c : Context) : Transforms .enc c (encBlock c) := fun _ => execEnc_of_some

theorem dec_transforms (c : Context) : Transforms .dec c (decBlock c) := fun _ => execDec_of_some

/-- `s` after a block command has left the block `ab` and the host has read the status and the block. -/
def State.withBlockRead (ab : Word × Word) (s : State) : State :=
  { s with blka := ab.1, blkb := ab.2, err := 0, replies := ab.2 :: ab.1 :: 0x00000001 :: s.replies }

section Transform

variable {i : Instr} {c : Context} {f : Word × Word → Word × Word} {s : State}
variable (hf : Transforms i c f) (hctx : s.ctx = some c)
include hf hctx

theorem execLines_heldBlockLines_of_context :
    execLines (heldBlockLines i) s = .next (s.withBlockRead (f (block s))) := by
  have hstatus : statusWord (succeed (writeBlock (f (block s)) s)) = 0x00000001 :=
    statusWord_eq_one rfl (by simp [hctx])
  rw [execLines_heldBlockLines (hf s hctx), hstatus]
  rfl

/-- The block that was in the registers before plays no part. -/
theorem execLines_blockLines_of_context (x : Vector Byte 8) :
    execLines (blockLines i x) s = .next (s.withBlockRead (f (bufferA x, bufferB x))) :=
  execLines_heldBlockLines_of_context (s := writeReg .blkb (bufferB x) (writeReg .blka (bufferA x) s)) hf hctx

theorem runFor_heldBlockLines_of_context {rest : List HostEvent}
    (ha : s.arrivals = eventsOf s.params (heldBlockLines i) ++ rest) :
    runFor 4 s = .next ((s.withBlockRead (f (block s))).withArrivals rest) :=
  runFor_of_arrivals_eventsOf ha (heldBlockLines_wf i _) (execLines_heldBlockLines_of_context hf hctx)

end Transform

/-- On an empty slot a block command raises code 4 (R79, R87). -/
theorem exec_blockCommand_of_none {i : Instr} {s : State} (hi : i = .enc ∨ i = .dec) (h : s.ctx = none) :
    exec i s = .next (raiseError .noContext s) := by
  obtain rfl | rfl := hi
  · exact execEnc_of_none h
  · exact execDec_of_none h

/-- On an empty slot the block is read back as it was. -/
theorem execLines_heldBlockLines_of_none {i : Instr} {s : State} (hi : i = .enc ∨ i = .dec)
    (h : s.ctx = none) :
    execLines (heldBlockLines i) s =
      .next { s with err := 4, replies := s.blkb :: s.blka :: 0x00000400 :: s.replies } := by
  rw [execLines_heldBlockLines (exec_blockCommand_of_none hi h), statusWord_noContext h]
  rfl

/-- Settles O52: a run of the four lines, with a context and without. -/
theorem heldBlockIsTransformedInPlace : Obligations.HeldBlockIsTransformedInPlace := fun _ _ =>
  ⟨fun c hctx ha => runFor_heldBlockLines_of_context (enc_transforms c) hctx ha,
    fun c hctx ha => runFor_heldBlockLines_of_context (dec_transforms c) hctx ha,
    fun i hi hctx ha =>
      runFor_of_arrivals_eventsOf ha (heldBlockLines_wf i _) (execLines_heldBlockLines_of_none hi hctx)⟩

/-! ### Decryption undoes encryption (R101) -/

theorem decRounds_encRounds (c : Context) (n : Nat) (ab : Word × Word) :
    decRounds c n (encRounds c n ab) = ab := by
  induction n with
  | zero => rfl
  | succ n ih => rw [encRounds, decRounds, decRound_encRound, ih]

@[simp] theorem decBlock_encBlock (c : Context) (ab : Word × Word) : decBlock c (encBlock c ab) = ab := by
  rw [decBlock, encBlock, decRounds_encRounds, unwhiten_whiten]

/-- Settles O46: the second program decrypts the words that the first left and the host read. -/
theorem decryptBlockReturnsTheEncryptedBuffer : Obligations.DecryptBlockReturnsTheEncryptedBuffer := by
  intro s c x y rest hctx hy ha
  have hwf : ∀ l ∈ encryptBlockLines x ++ decryptBlockLines y, l.wf s.params = true := fun l hl =>
    (List.mem_append.mp hl).elim (blockLines_wf _ x _ l) (blockLines_wf _ y _ l)
  have henc := execLines_blockLines_of_context (enc_transforms c) hctx x
  have hdec := (execLines_append_of_next henc (decryptBlockLines y)).trans
    (execLines_blockLines_of_context
    (s := s.withBlockRead (encBlock c (bufferA x, bufferB x))) (dec_transforms c) hctx y)
  have hA : bufferA y = (encBlock c (bufferA x, bufferB x)).1 := by rw [hy, bufferA_bufferOf]
  have hB : bufferB y = (encBlock c (bufferA x, bufferB x)).2 := by rw [hy, bufferB_bufferOf]
  rw [hA, hB, Prod.mk.eta, decBlock_encBlock] at hdec
  refine ⟨_, bufferA x, bufferB x, _, runFor_of_arrivals_eventsOf ha hwf hdec, rfl, hctx, ?_, rfl,
    bufferOf_buffer x⟩
  rw [hA, hB]
  rfl

/-! ### `construct` (R61) -/

/-- Byte `r` of key word `m` is byte `4m + r` of the key, and zero beyond the key. -/
theorem byte_keyWordOf (key : List Byte) (m : Nat) {r : Nat} (hr : r < 4) :
    byte (keyWordOf key m) r = key.getD (4 * m + r) 0 := by
  obtain ⟨h0, h1, h2, h3⟩ := byte_le32 (key.getD (4 * m) 0) (key.getD (4 * m + 1) 0)
    (key.getD (4 * m + 2) 0) (key.getD (4 * m + 3) 0)
  obtain rfl | rfl | rfl | rfl : r = 0 ∨ r = 1 ∨ r = 2 ∨ r = 3 := by omega
  exacts [h0, h1, h2, h3]

/-- A key buffer that starts with the key's words holds the key (R24). -/
theorem keyBytes_of_keyWords {key : List Byte} {kw : List Word}
    (h : ∀ m, m < keyWordCount key.length → kw.getD m 0 = keyWordOf key m) :
    keyBytes kw key.length = key := by
  refine List.ext_getElem (keyBytes_length kw _) fun k _ hk => ?_
  have hm : k / 4 < keyWordCount key.length := by simp only [keyWordCount]; omega
  have hk4 : 4 * (k / 4) + k % 4 = k := Nat.div_add_mod k 4
  simp only [keyBytes, List.getElem_map, List.getElem_range]
  rw [keyByte, h _ hm, byte_keyWordOf _ _ (Nat.mod_lt k (by decide)), hk4, List.getD_eq_getElem _ _ hk]

/-- Writes of `f 0 .. f (n-1)` to the first `n` words of the key buffer put them there and change nothing
else of the state. -/
theorem execLines_wr_keyw (f : Nat → Word) (n : Nat) (s : State) :
    ∃ kw, execLines ((List.range n).map fun m => .wr (.keyw m) (f m)) s = .next { s with keyw := kw } ∧
      kw.length = s.keyw.length ∧ ∀ m, m < n → m < s.keyw.length → kw.getD m 0 = f m := by
  induction n with
  | zero => exact ⟨s.keyw, rfl, rfl, fun m hm => absurd hm (Nat.not_lt_zero m)⟩
  | succ n ih =>
    obtain ⟨kw, hrun, hlen, hkw⟩ := ih
    refine ⟨kw.set n (f n), ?_, by rw [List.length_set, hlen], fun m hm hms => ?_⟩
    · rw [List.range_succ, List.map_append, execLines_append_of_next hrun]
      rfl
    · rw [← hlen] at hms
      by_cases hmn : m = n
      · subst hmn
        rw [List.getD_eq_getElem?_getD, List.getElem?_set_self hms, Option.getD_some]
      · rw [List.getD_eq_getElem?_getD, List.getElem?_set_ne (Ne.symm hmn), ← List.getD_eq_getElem?_getD]
        exact hkw m (by omega) (hlen ▸ hms)

/-- The capacities are 32-bit numbers (R8). -/
theorem bMax_lt_of_wf {p : Params} (h : p.wf = true) : p.bMax < 2 ^ 32 := by
  simp only [Params.wf, Bool.and_eq_true, decide_eq_true_eq] at h
  omega

theorem keyWordCount_le_cMax {p : Params} {b : Nat} (h : b ≤ p.bMax) : keyWordCount b ≤ p.cMax := by
  simp only [keyWordCount, Params.cMax]
  omega

/-- The lines of `construct` after the loads of the key: `b` is the length of the key. -/
def setupLines (b rounds : Word) : List HostLine :=
  [.wr .keylen b, .wr .rounds rounds, cmdLine .setup, .rd .status]

theorem constructLines_eq (key : List Byte) (rounds : Word) :
    constructLines key rounds = loadKeyLines key ++ setupLines (BitVec.ofNat 32 key.length) rounds := rfl

theorem loadKeyLines_wf {p : Params} {key : List Byte} (h : key.length ≤ p.bMax) :
    ∀ l ∈ loadKeyLines key, l.wf p = true := by
  intro l hl
  obtain ⟨m, hm, rfl⟩ := List.mem_map.mp hl
  exact decide_eq_true ((List.mem_range.mp hm).trans_le (keyWordCount_le_cMax h))

theorem setupLines_wf (b rounds : Word) (p : Params) : ∀ l ∈ setupLines b rounds, l.wf p = true := by
  simp [setupLines, cmdLine, HostLine.wf, Reg.wf]

theorem constructLines_wf {p : Params} {key : List Byte} (h : key.length ≤ p.bMax) (rounds : Word) :
    ∀ l ∈ constructLines key rounds, l.wf p = true := fun l hl =>
  (List.mem_append.mp hl).elim (loadKeyLines_wf h l) (setupLines_wf _ rounds p l)

/-- After the loads the key buffer holds the key, when it has room for it, and nothing else has changed. -/
theorem execLines_loadKeyLines {key : List Byte} {s : State}
    (h : keyWordCount key.length ≤ s.keyw.length) :
    ∃ kw, execLines (loadKeyLines key) s = .next { s with keyw := kw } ∧ keyBytes kw key.length = key := by
  obtain ⟨kw, hrun, -, hkw⟩ := execLines_wr_keyw (keyWordOf key) (keyWordCount key.length) s
  exact ⟨kw, hrun, keyBytes_of_keyWords fun m hm => hkw m hm (hm.trans_le h)⟩

/-- `s` with the context of `key` and `rounds` in the slot and the key cleared (R72, R73), after the host has
read the status. -/
def State.withConstructed (key : List Byte) (rounds : Word) (s : State) : State :=
  { s with
    ctx := some { R := rounds, S := expand key rounds.toNat }
    keyw := List.replicate s.params.cMax 0
    keylen := 0
    rounds := rounds
    err := 0
    replies := 0x00000001 :: s.replies }

/-- With `key` in the key buffer, its length and `rounds` are accepted operands, and `SETUP` commits their
context (R75). -/
theorem execLines_setupLines {s : State} {key : List Byte} {b rounds : Word}
    (hkey : keyBytes s.keyw b.toNat = key) (hok : SetupAccepts { s with keylen := b, rounds := rounds }) :
    execLines (setupLines b rounds) s = .next (s.withConstructed key rounds) := by
  have hrun := execLines_cmdLine (exec_setup_of_accepts hok) [.rd .status]
  rw [execLines_rd, execLines_nil, readReg, statusWord_eq_one rfl rfl] at hrun
  subst hkey
  exact hrun

/-- The loads put the key in place, and the checks of `SETUP` pass on its length and the round count. -/
theorem execLines_constructLines {s : State} {key : List Byte} {rounds : Word} (hs : s.Inv) (hne : key ≠ [])
    (hlen : key.length ≤ s.params.bMax) (hr0 : rounds ≠ 0) (hrmax : rounds.toNat ≤ s.params.rMax) :
    execLines (constructLines key rounds) s = .next (s.withConstructed key rounds) := by
  have hb : (BitVec.ofNat 32 key.length).toNat = key.length := by
    rw [BitVec.toNat_ofNat, Nat.mod_eq_of_lt (hlen.trans_lt (bMax_lt_of_wf hs.params_wf))]
  have hb0 : BitVec.ofNat 32 key.length ≠ 0 := fun h0 =>
    hne (List.length_eq_zero_iff.mp (hb.symm.trans (congrArg BitVec.toNat h0)))
  have hroom : keyWordCount key.length ≤ s.keyw.length :=
    (keyWordCount_le_cMax hlen).trans_eq hs.keyw_length.symm
  obtain ⟨kw, hload, hkey⟩ := execLines_loadKeyLines hroom
  rw [constructLines_eq, execLines_append_of_next hload]
  exact execLines_setupLines (s := { s with keyw := kw }) (by rw [hb, hkey])
    ⟨hr0, hb0, hrmax, hb.trans_le hlen⟩

/-- Settles O45: a run of the lines of `construct`. -/
theorem constructBuildsTheContext : Obligations.ConstructBuildsTheContext :=
  fun _ _ rounds _ hs hne hlen hr0 hrmax ha =>
    runFor_of_arrivals_eventsOf ha (constructLines_wf hlen rounds)
      (execLines_constructLines hs hne hlen hr0 hrmax)

end Sys2Proof.Machine

/-! SUPPORT. Proofs of the statements of 40_key_schedule.md: the checks of `SETUP`, the initial table, the packed
key, and the table that `mix` leaves. -/

namespace Sys2Proof.Machine

open Sys2Proof.Spec

/-! ### The checks (R65 to R67) -/

/-- Settles O13, by the branches of the checks. -/
theorem setupReportsFirstFailingCheck : Obligations.SetupReportsFirstFailingCheck := by
  refine fun s => ⟨fun hr => ?_, fun hr hk => ?_, fun hr hk hcap => ?_, fun hr hk hrle hkle => ?_⟩
  · exact execSetup_of_error (if_pos hr)
  · exact execSetup_of_error ((if_neg hr).trans (if_pos hk))
  · exact execSetup_of_error ((if_neg hr).trans ((if_neg hk).trans (if_pos hcap)))
  · exact ⟨_, exec_setup_of_accepts ⟨hr, hk, hrle, hkle⟩, rfl, rfl⟩

/-! ### The initial table (R69) -/

/-- Word `i` of the progression that starts the table: `P + i * Q`. -/
def progressionWord (i : Nat) : Word := magicP + BitVec.ofNat 32 i * magicQ

theorem toNat_progressionWord (i : Nat) :
    (progressionWord i).toNat = (0xB7E15163 + i * 0x9E3779B9) % 2 ^ 32 := by
  have hP : magicP.toNat = 0xB7E15163 := rfl
  have hQ : magicQ.toNat = 0x9E3779B9 := rfl
  rw [progressionWord, BitVec.toNat_add, BitVec.toNat_mul, BitVec.toNat_ofNat, hP, hQ, Nat.mod_mul_mod,
    Nat.add_mod_mod]

theorem progressionWord_succ (i : Nat) : progressionWord (i + 1) = progressionWord i + magicQ := by
  rw [progressionWord, progressionWord, BitVec.ofNat_add, BitVec.add_mul, BitVec.one_mul, BitVec.add_assoc]

theorem initTable_getD {t i : Nat} (h : i < t) : (initTable t).getD i 0 = progressionWord i := by
  rw [List.getD_eq_getElem?_getD, initTable, initFrom_getElem? t magicP i h, Option.getD_some, progressionWord]

/-- Settles O15: the words of the initial table are those of the progression. -/
theorem initialTableIsAnArithmeticProgression : Obligations.InitialTableIsAnArithmeticProgression :=
  fun t => ⟨initTable_length t, fun i hi => by rw [initTable_getD hi, toNat_progressionWord]⟩

/-! ### The packed key (R70) -/

/-- Byte `k` of packed word `m` is the key buffer's up to the last key byte, and zero beyond. -/
theorem byte_packKey_keyBytes (keyw : List Word) (b m : Nat) {k : Nat} (hk : k < 4) :
    byte ((packKey (keyBytes keyw b)).getD m 0) k =
      if 4 * m + k < b then byte (keyw.getD m 0) k else 0 := by
  have hdiv : (4 * m + k) / 4 = m := by omega
  have hmod : (4 * m + k) % 4 = k := by omega
  rw [byte_packKey _ m k hk, keyBytes_getD, keyByte, hdiv, hmod]

/-- A packed word all of whose bytes are key bytes is the key buffer's word. -/
theorem packKey_keyBytes_getD_of_full {keyw : List Word} {b m : Nat} (h : 4 * m + 4 ≤ b) :
    (packKey (keyBytes keyw b)).getD m 0 = keyw.getD m 0 :=
  word_ext_byte fun k hk => by rw [byte_packKey_keyBytes keyw b m hk, if_pos (by omega)]

/-- The mask of the low `8 * n` bits keeps the bytes below `n` and clears the others. -/
theorem byte_and_lowMask (w : Word) (n : Nat) {k : Nat} (hk : k < 4) :
    byte (w &&& BitVec.ofNat 32 (2 ^ (8 * n) - 1)) k = if k < n then byte w k else 0 := by
  refine BitVec.eq_of_getLsbD_eq fun i hi => ?_
  have hmask : (BitVec.ofNat 32 (2 ^ (8 * n) - 1)).getLsbD (8 * k + i) = decide (k < n) := by
    rw [BitVec.getLsbD_ofNat, Nat.testBit_two_pow_sub_one, decide_eq_true (by omega : 8 * k + i < 32),
      Bool.true_and]
    exact decide_eq_decide.mpr (by omega)
  rw [getLsbD_byte, BitVec.getLsbD_and, hmask]
  by_cases hkn : k < n
  · simp [hkn, getLsbD_byte]
  · simp [hkn]

/-- A packed word whose first `n` bytes are the last of the key is the key buffer's word, masked to them. -/
theorem packKey_keyBytes_getD_of_partial {keyw : List Word} {b m n : Nat} (h : b = 4 * m + n) :
    (packKey (keyBytes keyw b)).getD m 0 = keyw.getD m 0 &&& BitVec.ofNat 32 (2 ^ (8 * n) - 1) :=
  word_ext_byte fun k hk => by
    rw [byte_packKey_keyBytes keyw b m hk, byte_and_lowMask _ n hk, h]
    simp only [Nat.add_lt_add_iff_left]

/-- The packed key has a word at each index below `ceil(b / 4)`. -/
theorem packKey_keyBytes_getElem? {keyw : List Word} {b m : Nat} (h : m < (b + 3) / 4) :
    (packKey (keyBytes keyw b))[m]? = some ((packKey (keyBytes keyw b)).getD m 0) := by
  have hm : m < (packKey (keyBytes keyw b)).length := by simpa [keyWordCount] using h
  rw [List.getD_eq_getElem _ _ hm, List.getElem?_eq_getElem hm]

/-- Settles O16: every word below the last is full; the last one is full when 4 divides the length. -/
theorem packedKeyMasksTheLastWord : Obligations.PackedKeyMasksTheLastWord := by
  refine fun keyw b hb => ⟨?_, fun m hm => ?_, fun h4 => ?_, fun h4 => ?_⟩
  · rw [packKey_length, keyBytes_length, keyWordCount]
  · rw [packKey_keyBytes_getElem? (by omega), packKey_keyBytes_getD_of_full (by omega)]
  · rw [packKey_keyBytes_getElem? (by omega), packKey_keyBytes_getD_of_full (by omega)]
  · rw [packKey_keyBytes_getElem? (by omega), packKey_keyBytes_getD_of_partial (n := b % 4) (by omega)]

/-- Keys of one number of words and the same bytes, with zeros beyond the end, are packed alike. -/
theorem packKey_congr {key key' : List Byte} (hlen : keyWordCount key'.length = keyWordCount key.length)
    (hbytes : ∀ k, key'.getD k 0 = key.getD k 0) : packKey key' = packKey key := by
  refine List.ext_getElem (by simpa using hlen) fun m hm' hm => ?_
  rw [← List.getD_eq_getElem _ 0 hm', ← List.getD_eq_getElem _ 0 hm]
  exact word_ext_byte fun r hr => by rw [byte_packKey _ m r hr, byte_packKey _ m r hr, hbytes]

theorem append_zeros_getD (key : List Byte) (z k : Nat) :
    (key ++ List.replicate z 0).getD k 0 = key.getD k 0 := by
  by_cases hk : k < key.length
  · exact List.getD_append _ _ _ _ hk
  · rw [List.getD_append_right _ _ _ _ (Nat.le_of_not_lt hk), List.getD_eq_default _ _ (Nat.le_of_not_lt hk),
      List.getD_eq_getElem?_getD, List.getElem?_getD_replicate_default_eq]

/-- Settles O19: the longer key has as many words and is packed alike, and `expand` reads nothing else of it. -/
theorem trailingZeroBytesKeepTheTable : Obligations.TrailingZeroBytesKeepTheTable := by
  intro key z rounds h
  have hlen : keyWordCount (key ++ List.replicate z 0).length = keyWordCount key.length := by
    rw [List.length_append, List.length_replicate]
    exact h
  rw [expand, expand, hlen, packKey_congr hlen (append_zeros_getD key z)]

/-! ### What the context depends on (R75) -/

/-- The context of `SETUP` is a function of the round count, the key length and the key bytes. -/
theorem setupContext_congr {s u : State} (hr : u.rounds = s.rounds) (hk : u.keylen = s.keylen)
    (hkey : ∀ k, k < s.keylen.toNat → keyByte u.keyw k = keyByte s.keyw k) :
    setupContext u = setupContext s := by
  have hbytes : keyBytes u.keyw s.keylen.toNat = keyBytes s.keyw s.keylen.toNat :=
    List.map_congr_left fun k hmem => hkey k (List.mem_range.mp hmem)
  rw [setupContext, setupContext, hr, hk, hbytes]

/-- Settles O18: both states get the context of the first. -/
theorem setupDependsOnKeyAndRoundsOnly : Obligations.SetupDependsOnKeyAndRoundsOnly :=
  fun s _ hs hu hr hk hkey =>
    ⟨setupContext s, _, _, exec_setup_of_accepts hs, exec_setup_of_accepts hu, rfl,
      congrArg some (setupContext_congr hr hk hkey)⟩

/-! ### The recurrence of `mix` (R71) -/

/-- The working values of `mix` after `n` iterations, for the initial table and the packed key. -/
def mixAfter (key : List Byte) (rounds n : Nat) : MixState :=
  mixIter (tableSize rounds) (keyWordCount key.length) n (mixStart (initTable (tableSize rounds)) (packKey key))

/-- Word `i` of the table after `n` iterations. Beyond the table, where no iteration writes, it goes on with the
progression of R69. -/
def tableWordAfter (key : List Byte) (rounds n i : Nat) : Word :=
  if i < tableSize rounds then (mixAfter key rounds n).S.getD i 0 else progressionWord i

/-- Key word `j` after `n` iterations. -/
def keyWordAfter (key : List Byte) (rounds n j : Nat) : Word := (mixAfter key rounds n).L.getD j 0

theorem tableWordAfter_zero (key : List Byte) (rounds i : Nat) :
    tableWordAfter key rounds 0 i = progressionWord i := by
  by_cases hi : i < tableSize rounds
  · exact (if_pos hi).trans (initTable_getD hi)
  · exact if_neg hi

/-- The table that `expand` returns is the one after the last iteration. -/
theorem expand_eq_map_tableWordAfter (key : List Byte) (rounds : Nat) :
    expand key rounds = (List.range (tableSize rounds)).map
      (tableWordAfter key rounds (mixCount (tableSize rounds) (keyWordCount key.length))) := by
  refine List.ext_getElem (by simp) fun i hi _ => ?_
  have hit : i < tableSize rounds := by simpa using hi
  rw [List.getElem_map, List.getElem_range, tableWordAfter, if_pos hit, ← List.getD_eq_getElem _ 0 hi]
  rfl

/-- After a store to one index of a list of words, that index reads the new word and every other the old one. -/
theorem words_getD_set {l : List Word} {k : Nat} (hk : k < l.length) (v : Word) (i : Nat) :
    (l.set k v).getD i 0 = if i = k then v else l.getD i 0 := by
  by_cases h : i = k
  · rw [if_pos h, h, List.getD_eq_getElem?_getD, List.getElem?_set_self hk, Option.getD_some]
  · rw [if_neg h, List.getD_eq_getElem?_getD, List.getElem?_set_ne (Ne.symm h), List.getD_eq_getElem?_getD]

section MixAfter

variable (key : List Byte) (rounds n : Nat)

theorem mixAfter_succ : mixAfter key rounds (n + 1) =
    mixStep (tableSize rounds) (keyWordCount key.length) (mixAfter key rounds n) :=
  mixIter_succ _ _ n _

@[simp] theorem mixAfter_i : (mixAfter key rounds n).i = n % tableSize rounds :=
  (mixIter_start_indices _ _ n _ _).1

@[simp] theorem mixAfter_j : (mixAfter key rounds n).j = n % keyWordCount key.length :=
  (mixIter_start_indices _ _ n _ _).2

@[simp] theorem mixAfter_S_length : (mixAfter key rounds n).S.length = tableSize rounds := by
  simp [mixAfter, mixStart]

@[simp] theorem mixAfter_L_length : (mixAfter key rounds n).L.length = keyWordCount key.length := by
  simp [mixAfter, mixStart]

/-- The table index of an iteration is in range (R43). -/
theorem mod_tableSize_lt : n % tableSize rounds < tableSize rounds :=
  Nat.mod_lt n (Nat.mul_pos Nat.two_pos (Nat.succ_pos rounds))

/-- The new accumulator `a`, and the table word that is set to it. -/
theorem mixAfter_a_succ : (mixAfter key rounds (n + 1)).a =
    rotl32 (tableWordAfter key rounds n (n % tableSize rounds) + (mixAfter key rounds n).a +
      (mixAfter key rounds n).accB) 3 := by
  rw [mixAfter_succ, tableWordAfter, if_pos (mod_tableSize_lt rounds n), ← mixAfter_i key rounds n]
  rfl

/-- The new accumulator `b`, from the new `a`, and the key word that is set to it. -/
theorem mixAfter_accB_succ : (mixAfter key rounds (n + 1)).accB =
    rotl32 (keyWordAfter key rounds n (n % keyWordCount key.length) + (mixAfter key rounds (n + 1)).a +
        (mixAfter key rounds n).accB)
      ((mixAfter key rounds (n + 1)).a + (mixAfter key rounds n).accB).toNat := by
  rw [mixAfter_succ, keyWordAfter, ← mixAfter_j key rounds n]
  rfl

theorem tableWordAfter_succ (i : Nat) : tableWordAfter key rounds (n + 1) i =
    if i = n % tableSize rounds then (mixAfter key rounds (n + 1)).a else tableWordAfter key rounds n i := by
  have hlt := mod_tableSize_lt rounds n
  by_cases hi : i < tableSize rounds
  · rw [tableWordAfter, tableWordAfter, if_pos hi, if_pos hi, mixAfter_succ, ← mixAfter_i key rounds n]
    exact words_getD_set (by simpa using hlt) _ i
  · rw [tableWordAfter, tableWordAfter, if_neg hi, if_neg hi, if_neg (by omega)]

theorem keyWordAfter_succ (hc : 0 < keyWordCount key.length) (j : Nat) : keyWordAfter key rounds (n + 1) j =
    if j = n % keyWordCount key.length then (mixAfter key rounds (n + 1)).accB
    else keyWordAfter key rounds n j := by
  rw [keyWordAfter, keyWordAfter, mixAfter_succ, ← mixAfter_j key rounds n]
  exact words_getD_set (by simpa using Nat.mod_lt n hc) _ j

end MixAfter

/-- The iterations of `mix` obey the recurrence of R71 when the key has a word. -/
theorem mixTrace_mixAfter {key : List Byte} (hc : 0 < keyWordCount key.length) (rounds : Nat) :
    MixTrace (tableSize rounds) (keyWordCount key.length) (tableWordAfter key rounds) (keyWordAfter key rounds)
      (fun n => (mixAfter key rounds n).a) (fun n => (mixAfter key rounds n).accB) where
  a_zero := rfl
  b_zero := rfl
  a_succ := mixAfter_a_succ key rounds
  b_succ n := by rw [rotl32_mod]; exact mixAfter_accB_succ key rounds n
  S_succ := tableWordAfter_succ key rounds
  L_succ n := keyWordAfter_succ key rounds n hc

/-- Settles O14, with the words and the accumulators that `mix` holds after each iteration. -/
theorem setupConstructsTheMixedTable : Obligations.SetupConstructsTheMixedTable := by
  intro s hs
  have hb : s.keylen.toNat ≠ 0 := fun h0 => hs.keylen_ne (BitVec.eq_of_toNat_eq h0)
  have hc : keyWordCount (keyBytes s.keyw s.keylen.toNat).length = (s.keylen.toNat + 3) / 4 := by
    rw [keyBytes_length, keyWordCount]
  have htrace := mixTrace_mixAfter (key := keyBytes s.keyw s.keylen.toNat) (by omega) s.rounds.toNat
  have hexec := exec_setup_of_accepts hs
  rw [setupContext, expand_eq_map_tableWordAfter, hc] at hexec
  rw [hc] at htrace
  refine ⟨_, _, _, _, htrace, ?_, fun i => ?_, fun m k hk => ?_, hexec⟩
  · exact (tableWordAfter_zero _ _ 0).trans (by decide)
  · rw [tableWordAfter_zero, tableWordAfter_zero, progressionWord_succ, magicQ]
  · exact byte_packKey_keyBytes s.keyw s.keylen.toNat m hk

end Sys2Proof.Machine

/-! SUPPORT. Proofs of the statements of 41_encrypt.md: the empty slot, the recurrence of `ENC`, and what the
block commands depend on. -/

namespace Sys2Proof.Machine

open Sys2Proof.Spec

/-! ### The recurrence of `ENC` (R80, R81) -/

/-- The block after the whitening and the rounds `1 .. r`. -/
def encBlockAfter (c : Context) (ab : Word × Word) (r : Nat) : Word × Word := encRounds c r (whiten c ab)

theorem encBlock_eq_encBlockAfter (c : Context) (ab : Word × Word) :
    encBlock c ab = encBlockAfter c ab c.R.toNat := rfl

theorem encBlockAfter_zero (c : Context) (ab : Word × Word) : encBlockAfter c ab 0 = whiten c ab := rfl

theorem encBlockAfter_of_pos (c : Context) (ab : Word × Word) {r : Nat} (hr : 1 ≤ r) :
    encBlockAfter c ab r = encRound c r (encBlockAfter c ab (r - 1)) := by
  obtain ⟨n, rfl⟩ := Nat.exists_eq_add_of_le' hr
  rfl

/-- The blocks between the rounds obey the recurrence of R80 and R81. -/
theorem encTrace_encBlockAfter (c : Context) (ab : Word × Word) :
    EncTrace c ab.1 ab.2 (fun r => (encBlockAfter c ab r).1) (fun r => (encBlockAfter c ab r).2) where
  A_zero := congrArg Prod.fst (encBlockAfter_zero c ab)
  B_zero := congrArg Prod.snd (encBlockAfter_zero c ab)
  A_round r hr _ := by rw [encBlockAfter_of_pos c ab hr, encRound, encRoundA, add32]
  B_round r hr _ := by rw [encBlockAfter_of_pos c ab hr, encRound, encRoundB, add32]

/-- Settles O23, with the words of the block that stand between the rounds. -/
theorem encLeavesTheLastRound : Obligations.EncLeavesTheLastRound := fun s c hctx =>
  ⟨_, _, encTrace_encBlockAfter c (block s), encBlock_eq_encBlockAfter c (block s) ▸ enc_transforms c s hctx⟩

/-! ### The empty slot (R79, R87) -/

/-- Settles O22, by the branch that both commands take on an empty slot. -/
theorem blockCommandsNeedAContext : Obligations.BlockCommandsNeedAContext := fun _ hctx =>
  ⟨exec_blockCommand_of_none (.inl rfl) hctx, exec_blockCommand_of_none (.inr rfl) hctx⟩

/-! ### What the block commands depend on (R83, R91, R146) -/

theorem exists_transforms {i : Instr} (hi : i = .enc ∨ i = .dec) (c : Context) : ∃ f, Transforms i c f := by
  obtain rfl | rfl := hi
  · exact ⟨_, enc_transforms c⟩
  · exact ⟨_, dec_transforms c⟩

/-- Settles O26: on an empty slot both blocks stay and both errors are code 4; with a context both states get
the same function of the same block. -/
theorem blockCommandsDependOnContextAndBlockOnly :
    Obligations.BlockCommandsDependOnContextAndBlockOnly := by
  intro i s u t v hi hctx ha hb ht hv
  cases hs : s.ctx with
  | none =>
    rw [exec_blockCommand_of_none hi hs] at ht
    rw [exec_blockCommand_of_none hi (hctx.trans hs)] at hv
    cases ht
    cases hv
    exact ⟨ha, hb, rfl⟩
  | some c =>
    obtain ⟨f, hf⟩ := exists_transforms hi c
    have hblock : block u = block s := Prod.ext ha hb
    rw [hf s hs] at ht
    rw [hf u (hctx.trans hs), hblock] at hv
    cases ht
    cases hv
    exact ⟨rfl, rfl, rfl⟩

end Sys2Proof.Machine

/-! SUPPORT. Proofs of the statements of 42_decrypt.md: the recurrence of `DEC`, and each step of it undoing one
step of `ENC`. -/

namespace Sys2Proof.Machine

open Sys2Proof.Spec

/-! ### The recurrence of `DEC` (R88, R89) -/

/-- Rounds 1 up to `n` of encryption undo rounds `n` down to 1 of decryption. -/
theorem encRounds_decRounds (c : Context) (n : Nat) (ab : Word × Word) :
    encRounds c n (decRounds c n ab) = ab := by
  induction n generalizing ab with
  | zero => rfl
  | succ n ih => rw [decRounds, encRounds, ih, encRound_decRound]

/-- The block that round `r` of decryption starts from; at index 0, the block that the last round leaves. It is
written as what the first `r` rounds of encryption make of the latter, since they undo the last `r` of
decryption. -/
def decBlockBefore (c : Context) (ab : Word × Word) (r : Nat) : Word × Word :=
  encRounds c r (decRounds c c.R.toNat ab)

theorem decBlockBefore_start (c : Context) (ab : Word × Word) : decBlockBefore c ab c.R.toNat = ab :=
  encRounds_decRounds c c.R.toNat ab

theorem decBlockBefore_pred (c : Context) (ab : Word × Word) {r : Nat} (hr : 1 ≤ r) :
    decBlockBefore c ab (r - 1) = decRound c r (decBlockBefore c ab r) := by
  obtain ⟨n, rfl⟩ := Nat.exists_eq_add_of_le' hr
  exact (decRound_encRound c (n + 1) _).symm

/-- The un-whitening is applied to the block at index 0, which round 1 leaves. -/
theorem decBlock_eq_sub_decBlockBefore (c : Context) (ab : Word × Word) :
    decBlock c ab =
      ((decBlockBefore c ab 0).1 - tableWord c 0, (decBlockBefore c ab 0).2 - tableWord c 1) := rfl

/-- The blocks between the rounds obey the recurrence of R88. -/
theorem decTrace_decBlockBefore (c : Context) (ab : Word × Word) :
    DecTrace c ab.1 ab.2 (fun r => (decBlockBefore c ab r).1) (fun r => (decBlockBefore c ab r).2) where
  A_start := congrArg Prod.fst (decBlockBefore_start c ab)
  B_start := congrArg Prod.snd (decBlockBefore_start c ab)
  B_round r hr _ := by rw [decBlockBefore_pred c ab hr, decRound, decRoundB, sub32]
  A_round r hr _ := by rw [decBlockBefore_pred c ab hr, decRound, decRoundA, sub32]

/-- Settles O24, with the words of the block that stand between the rounds. -/
theorem decLeavesTheLastRound : Obligations.DecLeavesTheLastRound := by
  intro s c hctx
  have hexec := dec_transforms c s hctx
  rw [decBlock_eq_sub_decBlockBefore] at hexec
  exact ⟨_, _, decTrace_decBlockBefore c (block s), hexec⟩

/-! ### Each step of `DEC` undoes one step of `ENC` (R92) -/

/-- The first update of decryption round `r` gives the `B` that encryption round `r` started from. -/
theorem decRoundB_encRound (c : Context) (r : Nat) (ab : Word × Word) :
    decRoundB c r (encRound c r ab) = ab.2 :=
  congrArg Prod.snd (decRound_encRound c r ab)

/-- The second update, from that `B`, gives the `A` that encryption round `r` started from. -/
theorem decRoundA_encRound (c : Context) (r : Nat) (ab : Word × Word) :
    decRoundA c r (encRound c r ab).1 ab.2 = ab.1 := by
  have h := congrArg Prod.fst (decRound_encRound c r ab)
  rwa [decRound, decRoundB_encRound] at h

/-- Settles O50: the three facts by the laws of the words, the round by its two updates, and the transform by its
rounds and the un-whitening. -/
theorem eachDecStepUndoesAnEncStep : Obligations.EachDecStepUndoesAnEncStep := by
  refine ⟨fun x y k n => ⟨sub32_add32 x k, rotr32_rotl32 x n, xor_xor_right x y⟩, ?_, fun c ab =>
    ⟨unwhiten_whiten c ab, fun n => decRounds_encRounds c n ab, decBlock_encBlock c ab⟩⟩
  intro c r A0 B0 A1 B1 hA hB
  have henc : encRound c r (A0, B0) = (A1, B1) := by
    subst hA hB
    rfl
  have hdecB := decRoundB_encRound c r (A0, B0)
  have hdecA := decRoundA_encRound c r (A0, B0)
  have hdec := decRound_encRound c r (A0, B0)
  rw [henc] at hdecB hdecA hdec
  exact ⟨henc, hdecB, hdecA, hdec⟩

end Sys2Proof.Machine

/-! SUPPORT. Proofs of the statements of 43_host_access.md: what a read of each register returns, and what a write
to each register but `CMD` stores. -/

namespace Sys2Proof.Machine

/-! ### The step that handles one register access -/

/-- A read answers the register's word, and nothing but the host's replies changes (R94). -/
theorem step_of_read {s : State} {r : Reg} {rest : List HostEvent} (hr : r.wf s.params = true)
    (h : s.arrivals = .access (.rd32 (s.params.base + r.offset)) :: rest) :
    step s = .next { s with arrivals := rest, replies := readReg r s :: s.replies } := by
  rw [step_line s (.rd r) rest hr h, ← readReg_withArrivals r s rest]
  rfl

/-- A write to a register other than `CMD` is its store (R95, R97). -/
theorem step_of_write {s : State} {r : Reg} {rest : List HostEvent} (hcmd : r ≠ .cmd)
    (hr : r.wf s.params = true) (v : Word)
    (h : s.arrivals = .access (.wr32 (s.params.base + r.offset) v) :: rest) :
    step s = .next (writeReg r v { s with arrivals := rest }) :=
  (step_line s (.wr r v) rest hr h).trans (hostWrite_of_ne_cmd hcmd v _)

/-! ### Reads -/

/-- The status word as the spec writes it, `(ERR << 8) | VALID` (R26). -/
theorem statusWord_eq_or (s : State) :
    statusWord s = (s.err.setWidth 32 <<< 8) ||| (if s.ctx.isSome then 1 else 0) := by
  unfold statusWord validBit
  generalize s.err = err
  generalize s.ctx.isSome = valid
  revert err valid
  decide

/-- Settles O32: the word returned is `readReg`'s, which is the statement's for each register. -/
theorem readsReturnTheRegister : Obligations.ReadsReturnTheRegister := by
  intro s r rest hr h
  refine ⟨readReg r s, step_of_read hr h, ?_⟩
  cases r with
  | status => simp [readReg, statusWord_eq_or]
  | _ => simp [readReg]

/-! ### Writes -/

/-- A store to the key buffer, at an index of the buffer or not, is seen at the index it names and at no
other. -/
theorem keyw_getD_set (l : List Word) (m : Nat) (v : Word) {n : Nat} (hn : n < l.length) :
    (l.set m v).getD n 0 = if n = m then v else l.getD n 0 := by
  by_cases hm : m < l.length
  · exact words_getD_set hm v n
  · rw [List.set_eq_of_length_le (not_lt.mp hm), if_neg (by omega)]

/-- Settles O34: each write is the store of `writeReg`; the new key buffer is the old one with word `m` set. -/
theorem writesStoreInTheRegister : Obligations.WritesStoreInTheRegister := by
  intro s v rest
  refine ⟨step_of_write (r := .status) nofun rfl v, step_of_write (r := .rounds) nofun rfl v,
    step_of_write (r := .keylen) nofun rfl v, step_of_write (r := .blka) nofun rfl v,
    step_of_write (r := .blkb) nofun rfl v, fun m hm h => ?_⟩
  exact ⟨s.keyw.set m v, step_of_write (r := .keyw m) nofun (decide_eq_true hm) v h, List.length_set,
    fun n hn => keyw_getD_set s.keyw m v hn⟩

end Sys2Proof.Machine

/-! SUPPORT. Proofs of the statements of 44_properties.md: each block transform undoes the other, and every command
completes. -/

namespace Sys2Proof.Machine

/-! ### The two transforms are inverse to each other (R110) -/

@[simp] theorem encBlock_decBlock (c : Context) (ab : Word × Word) : encBlock c (decBlock c ab) = ab := by
  rw [encBlock, decBlock, whiten_unwhiten, encRounds_decRounds]

/-- Encryption under `c` as a permutation of the blocks, with decryption as its inverse. -/
def blockPerm (c : Context) : Equiv.Perm (Word × Word) where
  toFun := encBlock c
  invFun := decBlock c
  left_inv := decBlock_encBlock c
  right_inv := encBlock_decBlock c

/-- Settles O29, by the laws of a permutation and its inverse. -/
theorem encryptionIsAPermutation : Obligations.EncryptionIsAPermutation := fun c =>
  ⟨(blockPerm c).bijective, (blockPerm c).symm.bijective, fun _ _ =>
    (blockPerm c).eq_symm_apply.symm.trans eq_comm⟩

/-! ### One block command after the other (R101, R102) -/

/-- The second command finds the context still in the slot, and its function is applied to the block that the
first one left. -/
theorem exec_pair_restores_block {i j : Instr} {c : Context} {f g : Word × Word → Word × Word}
    (hf : Transforms i c f) (hg : Transforms j c g) (hgf : Function.LeftInverse g f)
    {s : State} (hctx : s.ctx = some c) :
    ∃ t u : State, exec i s = .next t ∧ exec j t = .next u ∧
      u.blka = s.blka ∧ u.blkb = s.blkb ∧ u.err = 0 ∧ u.ctx = some c := by
  have hblock : g (f (block s)) = block s := hgf (block s)
  exact ⟨_, _, hf s hctx, hg _ hctx, congrArg Prod.fst hblock, congrArg Prod.snd hblock, rfl, hctx⟩

/-- Settles O27: decryption is the left inverse of encryption. -/
theorem decAfterEncRestoresTheBlock : Obligations.DecAfterEncRestoresTheBlock := fun _ c =>
  exec_pair_restores_block (enc_transforms c) (dec_transforms c) (decBlock_encBlock c)

/-- Settles O28: encryption is the left inverse of decryption. -/
theorem encAfterDecRestoresTheBlock : Obligations.EncAfterDecRestoresTheBlock := fun _ c =>
  exec_pair_restores_block (dec_transforms c) (enc_transforms c) (encBlock_decBlock c)

/-! ### Every command completes (R111) -/

/-- Code 5 is raised by an illegal word only, so it is no command's (R115). -/
theorem ErrorCode.code_of_ne_illegalCommand {e : ErrorCode} (h : e ≠ .illegalCommand) :
    e.code = 1 ∨ e.code = 2 ∨ e.code = 3 ∨ e.code = 4 := by
  cases e with
  | roundsZero => exact .inl rfl
  | keyEmpty => exact .inr (.inl rfl)
  | capacityExceeded => exact .inr (.inr (.inl rfl))
  | noContext => exact .inr (.inr (.inr rfl))
  | illegalCommand => exact absurd rfl h

/-- Settles O30: a command that fails raises one of the codes 1 to 4, and one that succeeds leaves 0. -/
theorem everyCommandCompletes : Obligations.EveryCommandCompletes := by
  intro i s
  obtain ⟨t, ht⟩ := exec_next i s
  refine ⟨t, ht, ?_⟩
  obtain ⟨e, he, rfl⟩ | ⟨_, _, rfl⟩ | ⟨_, _, _, rfl⟩ := exec_cases i s t ht
  · exact .inr (ErrorCode.code_of_ne_illegalCommand he)
  · exact .inl rfl
  · exact .inl rfl

end Sys2Proof.Machine

/-! SUPPORT. Proofs of the statements of 60_exceptions.md: errors are precise, and a reset wins over the command
before it. -/

namespace Sys2Proof.Machine

/-! ### A step that writes `CMD` -/

/-- Only a read returns a word to the host, so no command does (R94). -/
theorem exec_replies {i : Instr} {s t : State} (h : exec i s = .next t) : t.replies = s.replies := by
  obtain ⟨e, _, rfl⟩ | ⟨_, _, rfl⟩ | ⟨_, _, ab, rfl⟩ := exec_cases i s t h
  · exact raiseError_replies e s
  · simp
  · simp

/-- A command that does not raise an error leaves code 0 (R125). -/
theorem exec_raiseError_or_err_eq_zero {i : Instr} {s t : State} (h : exec i s = .next t) :
    (∃ e, t = raiseError e s) ∨ t.err = 0 := by
  obtain ⟨e, _, ht⟩ | ⟨_, _, rfl⟩ | ⟨_, _, ab, rfl⟩ := exec_cases i s t h
  · exact .inl ⟨e, ht⟩
  · exact .inr rfl
  · exact .inr rfl

/-- A write to `CMD` of any word, legal or not, completes and returns no word to the host; it raises an error
and changes nothing else, or it leaves code 0 (R124, R125). -/
theorem step_of_commandWrite {s : State} {cw : Word} (h : s.NextLine (.wr .cmd cw)) :
    ∃ t, step s = .next t ∧ t.replies = s.replies ∧ ((∃ e, t = raiseError e s.popped) ∨ t.err = 0) := by
  cases hcw : decode cw with
  | ok i =>
    obtain ⟨t, ht⟩ := exec_next i s.popped
    exact ⟨t, (step_of_nextCommand ⟨cw, h, hcw⟩).trans ht, (exec_replies ht).trans (popped_replies s),
      exec_raiseError_or_err_eq_zero ht⟩
  | error e => exact ⟨_, step_of_illegalWord h hcw, rfl, .inl ⟨_, rfl⟩⟩

/-- Settles O31: an error replaces `STATUS.ERR` by a code that is at most 5, and code 0 is no failure. -/
theorem failedCommandChangesOnlyErr : Obligations.FailedCommandChangesOnlyErr := by
  intro s cw h
  obtain ⟨t, ht, _, ⟨e, rfl⟩ | herr⟩ := step_of_commandWrite h
  · exact ⟨_, ht, e.code_le, fun _ => rfl⟩
  · exact ⟨t, ht, by simp [herr], fun hne => absurd herr hne⟩

/-! ### Reset (R128, R136) -/

theorem runFor_one (s : State) : runFor 1 s = step s := by
  rw [runFor]
  cases step s <;> rfl

/-- Settles O40: what a reset leaves depends on the parameters, the later events and the host's replies only
(`resetEventGivesTheResetState`), and the command changes none of these. -/
theorem resetWinsOverTheCommandBeforeIt : Obligations.ResetWinsOverTheCommandBeforeIt := by
  intro s a cw rest ha hd
  obtain ⟨t, ht, hreplies, _⟩ := step_of_commandWrite ⟨a, _, ha, hd⟩
  have harr : t.arrivals = .reset :: rest := by rw [step_arrivals s t ht, ha, List.tail_cons]
  calc
    runFor 2 s = runFor 1 t := runFor_succ_of_next 1 s t ht
    _ = step t := runFor_one t
    _ = .next { State.resetWith t.params with arrivals := rest, replies := t.replies } :=
      resetEventGivesTheResetState t rest harr
    _ = .next { State.resetWith s.params with arrivals := rest, replies := s.replies } := by
      rw [step_params s t ht, hreplies]
    _ = step { s with arrivals := .reset :: rest } :=
      (resetEventGivesTheResetState { s with arrivals := .reset :: rest } rest rfl).symm

end Sys2Proof.Machine

/-! SUPPORT. Proofs of the statements of 70_reset_and_hazards.md: the idle core, what a reset destroys, and the
key that a successful `SETUP` uses up. -/

namespace Sys2Proof.Machine

open Sys2Proof.Spec

/-! ### The idle core (R150) -/

/-- Settles O9, by induction over the number of steps. -/
theorem idleCoreKeepsItsState : Obligations.IdleCoreKeepsItsState := by
  intro s n hidle
  induction n with
  | zero => rfl
  | succ n ih => rw [runFor_succ_of_next n s s (step_of_arrivals_nil hidle), ih]

/-! ### What a reset destroys (R137) -/

/-- Settles O39: R33's state holds neither a context nor a key, and what a reset leaves depends on the
parameters, the later events and the host's replies only (`resetEventGivesTheResetState`), so that both
states step to the same state. -/
theorem resetDestroysContextAndKey : Obligations.ResetDestroysContextAndKey := by
  intro s u rest hs hu hparams hreplies
  have hstep := resetEventGivesTheResetState s rest hs
  have hsame : step u = step s := by
    rw [resetEventGivesTheResetState u rest (hu.trans hs), hparams, hreplies, hstep]
  exact ⟨fun n => runFor_succ_congr n s u hsame, _, hstep, rfl, rfl,
    fun _ hi => exec_blockCommand_of_none hi rfl⟩

/-! ### A second `SETUP` (R143) -/

/-- Settles O21: code 0 says that the first `SETUP` accepted its operands (O20); so it cleared the key and kept
a round count that is not 0, and the second one fails at the check of the key length (O13). -/
theorem secondSetupWithoutReloadIsKeyEmpty : Obligations.SecondSetupWithoutReloadIsKeyEmpty := by
  intro s t ht herr
  obtain ⟨_, _, hrounds, _, _, _, _, haccepts⟩ := setupFrame s t ht
  have hacc : SetupAccepts s := haccepts.mp herr
  have hne : t.rounds ≠ 0 := hrounds ▸ hacc.rounds_ne
  obtain ⟨_, hkeyEmpty, _⟩ := setupReportsFirstFailingCheck t
  rw [exec_setup_of_accepts hacc] at ht
  cases ht
  exact ⟨rfl, rfl, rfl, hkeyEmpty hne rfl⟩

end Sys2Proof.Machine
